-- ==== Sys2Proof/Word.lean ====
section
/-! DEFINITION. The widths of the block: a byte, a 16-bit coefficient, a micro-operation word (R6, R60). -/

namespace Sys2Proof

/-- A byte: the addressable unit of `BUF` and of `AUX` (R41). -/
abbrev Byte := BitVec 8

/-- The width of a word coefficient and of the host's read bus (R10, R120). -/
abbrev Half := BitVec 16

/-- One micro-operation word of `PROG` (R60). -/
abbrev Word := BitVec 32

end Sys2Proof
end

