-- ==== Sys2Proof/Syntax.lean ====
section
/-! DEFINITION. The record's fields, the nine operations, and the micro-operations as syntax (R10, R62, R63). -/

namespace Sys2Proof

/-- The 26 loaded fields of the Calibration Record, in index order 0 to 25, under the source's names (R10). -/
inductive Field
  | par_t1 | par_t2 | par_t3
  | par_p1 | par_p2 | par_p3 | par_p4 | par_p5 | par_p6 | par_p7 | par_p8 | par_p9 | par_p10
  | par_h1 | par_h2 | par_h3 | par_h4 | par_h5 | par_h6 | par_h7
  | par_gh1 | par_gh2 | par_gh3
  | res_heat_range | res_heat_val | range_sw_err
  deriving DecidableEq, Repr

/-- The four types of a record field (R10). -/
inductive FieldType
  | u8 | i8 | u16 | i16
  deriving DecidableEq, Repr

/-- The nine operations of the opcode map (R63). -/
inductive Op
  | uword | sword | sbyte | ubyte | pk12l | pk12h | amsk | asbyte | endOp
  deriving DecidableEq, Repr

/-- The three auxiliary input registers `AUX[0]`, `AUX[1]`, `AUX[2]` (R24). -/
inductive AuxReg
  | aux0 | aux1 | aux2
  deriving DecidableEq, Repr

/-- A micro-operation, one constructor per row of the opcode table, operands as R62 names them: `rd` the destination
field, `a` and `b` buffer offsets, `n` an auxiliary index, `mask` the immediate of `AMSK`. -/
inductive Instr
  | uword (rd : Field) (a b : Byte)
  | sword (rd : Field) (a b : Byte)
  | sbyte (rd : Field) (a : Byte)
  | ubyte (rd : Field) (a : Byte)
  | pk12l (rd : Field) (a b : Byte)
  | pk12h (rd : Field) (a b : Byte)
  | amsk (rd : Field) (n : AuxReg) (mask : Byte)
  | asbyte (rd : Field) (n : AuxReg)
  | endOp
  deriving DecidableEq, Repr

end Sys2Proof
end

