-- ==== Sys2Proof/Config.lean ====
section
/-! DEFINITION. The parameters of an instance (R5): the fixed constants, and the OPEN ones as opaque constants of which
nothing can be proved. -/

namespace Sys2Proof

/-- The shape of the offset map `OFF` (R5, R123): for a two-offset field the offsets of its more and of its less
significant byte, for a one-offset field the offset of its byte. -/
structure OffsetMap where
  msb : Field → Byte
  lsb : Field → Byte
  off : Field → Byte
  deriving Inhabited

namespace Config

/-- OPEN: the vendor-defined offset map `OFF` (R5, D23). Log entry 9. -/
opaque off : OffsetMap

/-- OPEN: `RANGE_MASK`, the mask of `res_heat_range` (R5, D23). Log entry 9. -/
opaque rangeMask : Byte

/-- OPEN: `ERROR_MASK`, the mask of `range_sw_err` (R5, D23). Log entry 9. -/
opaque errorMask : Byte

/-- OPEN: one less than `TFINE_W`, so that the width is a positive integer and nothing else is known (R5, D19).
Log entry 10. -/
opaque tfineWidthPred : Nat

/-- `TFINE_W`, the width in bits of `T_FINE` (R16). -/
def tfineW : Nat := tfineWidthPred + 1

/-- OPEN: the free part of `CAL_LEN` (R5, D10); `Program.calLen` puts it into the range R5 gives. Log entry 10. -/
opaque calLenFree : Nat

/-- `BUF_CAP`, the capacity of the input buffer in bytes (R5). -/
abbrev bufCap : Nat := 256

/-- `NFIELD`, the number of loaded record fields (R5). -/
abbrev nField : Nat := 26

/-- `HUM_SHIFT`, the shift of the packed 12-bit fields (R5). -/
abbrev humShift : Nat := 4

/-- `DERIVED_SHIFT`, the right shift of the two masked derived fields (R5). -/
abbrev derivedShift : Nat := 4

/-- `NIB_MASK`, the mask that selects the low nibble (R5, R85). -/
abbrev nibMask : Nat := 0x0F

end Config

end Sys2Proof
end

