-- ==== Sys2Proof/Machine/Fields.lean ====
section
/-! DEFINITION. The table of the record's fields (R10): index, type, width, the one operation bound to each field
(OPOF of R66), and the name an assembler line uses (R72). -/

namespace Sys2Proof

/-- The 26 fields in index order (R10). -/
def Field.all : List Field :=
  [.par_t1, .par_t2, .par_t3,
   .par_p1, .par_p2, .par_p3, .par_p4, .par_p5, .par_p6, .par_p7, .par_p8, .par_p9, .par_p10,
   .par_h1, .par_h2, .par_h3, .par_h4, .par_h5, .par_h6, .par_h7, .par_gh1, .par_gh2, .par_gh3,
   .res_heat_range, .res_heat_val, .range_sw_err]

/-- The index column of R10. -/
def Field.index : Field → Nat
  | .par_t1 => 0
  | .par_t2 => 1
  | .par_t3 => 2
  | .par_p1 => 3
  | .par_p2 => 4
  | .par_p3 => 5
  | .par_p4 => 6
  | .par_p5 => 7
  | .par_p6 => 8
  | .par_p7 => 9
  | .par_p8 => 10
  | .par_p9 => 11
  | .par_p10 => 12
  | .par_h1 => 13
  | .par_h2 => 14
  | .par_h3 => 15
  | .par_h4 => 16
  | .par_h5 => 17
  | .par_h6 => 18
  | .par_h7 => 19
  | .par_gh1 => 20
  | .par_gh2 => 21
  | .par_gh3 => 22
  | .res_heat_range => 23
  | .res_heat_val => 24
  | .range_sw_err => 25

/-- The field an `rd` value names; 26 to 31 name none (R64). -/
def Field.ofIndex (n : Nat) : Option Field := Field.all[n]?

/-- The type column of R10. -/
def Field.ty : Field → FieldType
  | .par_t1 => .u16
  | .par_t2 => .i16
  | .par_t3 => .i8
  | .par_p1 => .u16
  | .par_p2 => .i16
  | .par_p3 => .i8
  | .par_p4 => .i16
  | .par_p5 => .i16
  | .par_p6 => .i8
  | .par_p7 => .i8
  | .par_p8 => .i16
  | .par_p9 => .i16
  | .par_p10 => .u8
  | .par_h1 => .u16
  | .par_h2 => .u16
  | .par_h3 => .i8
  | .par_h4 => .i8
  | .par_h5 => .i8
  | .par_h6 => .u8
  | .par_h7 => .i8
  | .par_gh1 => .i8
  | .par_gh2 => .i16
  | .par_gh3 => .i8
  | .res_heat_range => .u8
  | .res_heat_val => .i8
  | .range_sw_err => .i8

/-- The op column of R10: the one operation that may write the field, `OPOF` of R66. -/
def Field.opOf : Field → Op
  | .par_t1 => .uword
  | .par_t2 => .sword
  | .par_t3 => .sbyte
  | .par_p1 => .uword
  | .par_p2 => .sword
  | .par_p3 => .sbyte
  | .par_p4 => .sword
  | .par_p5 => .sword
  | .par_p6 => .sbyte
  | .par_p7 => .sbyte
  | .par_p8 => .sword
  | .par_p9 => .sword
  | .par_p10 => .ubyte
  | .par_h1 => .pk12l
  | .par_h2 => .pk12h
  | .par_h3 => .sbyte
  | .par_h4 => .sbyte
  | .par_h5 => .sbyte
  | .par_h6 => .ubyte
  | .par_h7 => .sbyte
  | .par_gh1 => .sbyte
  | .par_gh2 => .sword
  | .par_gh3 => .sbyte
  | .res_heat_range => .amsk
  | .res_heat_val => .asbyte
  | .range_sw_err => .amsk

/-- The name of the field in an assembler line (R10, R72). -/
def Field.name : Field → String
  | .par_t1 => "par_t1"
  | .par_t2 => "par_t2"
  | .par_t3 => "par_t3"
  | .par_p1 => "par_p1"
  | .par_p2 => "par_p2"
  | .par_p3 => "par_p3"
  | .par_p4 => "par_p4"
  | .par_p5 => "par_p5"
  | .par_p6 => "par_p6"
  | .par_p7 => "par_p7"
  | .par_p8 => "par_p8"
  | .par_p9 => "par_p9"
  | .par_p10 => "par_p10"
  | .par_h1 => "par_h1"
  | .par_h2 => "par_h2"
  | .par_h3 => "par_h3"
  | .par_h4 => "par_h4"
  | .par_h5 => "par_h5"
  | .par_h6 => "par_h6"
  | .par_h7 => "par_h7"
  | .par_gh1 => "par_gh1"
  | .par_gh2 => "par_gh2"
  | .par_gh3 => "par_gh3"
  | .res_heat_range => "res_heat_range"
  | .res_heat_val => "res_heat_val"
  | .range_sw_err => "range_sw_err"

/-- The width in bits of a field type (R10). -/
def FieldType.width : FieldType → Nat
  | .u8 | .i8 => 8
  | .u16 | .i16 => 16

/-- Whether a type is signed (R11). -/
def FieldType.signed : FieldType → Bool
  | .i8 | .i16 => true
  | .u8 | .u16 => false

/-- `N_f`, the width of the field's register (R10, R11). -/
def Field.width (f : Field) : Nat := f.ty.width

/-- The value of a bit pattern held by a register of field `f`: `sint` for the signed types, `uint` for the unsigned
ones (R11). -/
def Field.val (f : Field) (v : BitVec f.width) : Int :=
  if f.ty.signed then v.toInt else v.toNat

/-- The field index in the five `rd` bits (R64). -/
def Field.bits (f : Field) : BitVec 5 := BitVec.ofNat 5 f.index

/-- The index of an auxiliary register (R24). -/
def AuxReg.index : AuxReg → Nat
  | .aux0 => 0
  | .aux1 => 1
  | .aux2 => 2

/-- The auxiliary register an `a` operand names; 3 to 255 name none (R62, R67 condition 6). -/
def AuxReg.ofByte (a : Byte) : Option AuxReg :=
  match a.toNat with
  | 0 => some .aux0
  | 1 => some .aux1
  | 2 => some .aux2
  | _ => none

/-- The auxiliary index as the byte an encoding and `ERRINFO.OFF` hold (R22, R62). -/
def AuxReg.byte (x : AuxReg) : Byte := BitVec.ofNat 8 x.index

end Sys2Proof
end

