-- ==== Sys2Proof/WellFormed.lean ====
section
/-! DEFINITION. The static check of one micro-operation: its operation is the one bound to its destination (R66). The
checks of a whole program (R70) stand behind the decoder, in Decode.lean. -/

namespace Sys2Proof

/-- The operation of a micro-operation (R63). -/
def Instr.op : Instr → Op
  | .uword _ _ _ => .uword
  | .sword _ _ _ => .sword
  | .sbyte _ _ => .sbyte
  | .ubyte _ _ => .ubyte
  | .pk12l _ _ _ => .pk12l
  | .pk12h _ _ _ => .pk12h
  | .amsk _ _ _ => .amsk
  | .asbyte _ _ => .asbyte
  | .endOp => .endOp

/-- The destination field of a micro-operation; `END` has none (R62, R64). -/
def Instr.dest : Instr → Option Field
  | .uword rd _ _ => some rd
  | .sword rd _ _ => some rd
  | .sbyte rd _ => some rd
  | .ubyte rd _ => some rd
  | .pk12l rd _ _ => some rd
  | .pk12h rd _ _ => some rd
  | .amsk rd _ _ => some rd
  | .asbyte rd _ => some rd
  | .endOp => none

/-- R66: an extraction is valid only if its operation equals `OPOF(rd)`. The other operand conditions of R67 cannot be
broken by a term of `Instr`: offsets and masks are bytes, an auxiliary index is one of three registers, an operand that
must be 0 is not an argument. -/
def Instr.wf (i : Instr) : Bool :=
  match i.dest with
  | some rd => decide (rd.opOf = i.op)
  | none => true

end Sys2Proof
end

