-- ==== Sys2Proof/Decode.lean ====
section
/-! DEFINITION. The decoder (R67, R68), the encoder (R61, R62), the table's match and mask (R74), and the check of a
whole micro-program (R70). -/

namespace Sys2Proof

/-- Why a word is `invalid`, by the condition of R67 it breaks. -/
inductive Reject
  /-- Condition 1: the reserved bits 22:16 are not zero. -/
  | reservedBits
  /-- Condition 2: `op` is 0x0 or 0x9 to 0xE. -/
  | reservedOp
  /-- Condition 3: `END` with a field that is not zero. -/
  | endOperand
  /-- Condition 4: `rd` is 26 to 31. -/
  | noSuchField
  /-- Condition 4: `op` is not the operation bound to `rd`. -/
  | unboundField
  /-- Condition 5: `b` is not zero on `SBYTE`, `UBYTE` or `ASBYTE`. -/
  | nonzeroB
  /-- Condition 6: the auxiliary index is above 2. -/
  | noSuchAux
  deriving DecidableEq, Repr

/-- Bits 31:28 of a word (R61). -/
def opBits (w : Word) : BitVec 4 := w.extractLsb' 28 4

/-- Bits 27:23 of a word (R61). -/
def rdBits (w : Word) : BitVec 5 := w.extractLsb' 23 5

/-- Bits 22:16 of a word (R61). -/
def zBits (w : Word) : BitVec 7 := w.extractLsb' 16 7

/-- Bits 15:8 of a word (R61). -/
def aBits (w : Word) : Byte := w.extractLsb' 8 8

/-- Bits 7:0 of a word (R61). -/
def bBits (w : Word) : Byte := w.extractLsb' 0 8

/-- Condition 4 of R67: the destination must exist and be bound to the operation. -/
def withDest (op : Op) (rd : BitVec 5) (k : Field → Except Reject Instr) : Except Reject Instr :=
  match Field.ofIndex rd.toNat with
  | none => .error .noSuchField
  | some f => if f.opOf = op then k f else .error .unboundField

/-- Condition 5 of R67: an unused `b` must be zero. -/
def withZeroB (b : Byte) (k : Except Reject Instr) : Except Reject Instr :=
  if b = 0 then k else .error .nonzeroB

/-- Condition 6 of R67: an auxiliary index is 0, 1 or 2. -/
def withAux (a : Byte) (k : AuxReg → Except Reject Instr) : Except Reject Instr :=
  match AuxReg.ofByte a with
  | none => .error .noSuchAux
  | some x => k x

/-- The decoder: total on 32-bit words, `invalid` by name (R67). -/
def decodeWord (w : Word) : Except Reject Instr :=
  let rd := rdBits w
  let a := aBits w
  let b := bBits w
  if zBits w ≠ 0 then .error .reservedBits
  else
    match (opBits w).toNat with
    | 0x1 => withDest .uword rd fun f => .ok (.uword f a b)
    | 0x2 => withDest .sword rd fun f => .ok (.sword f a b)
    | 0x3 => withDest .sbyte rd fun f => withZeroB b (.ok (.sbyte f a))
    | 0x4 => withDest .ubyte rd fun f => withZeroB b (.ok (.ubyte f a))
    | 0x5 => withDest .pk12l rd fun f => .ok (.pk12l f a b)
    | 0x6 => withDest .pk12h rd fun f => .ok (.pk12h f a b)
    | 0x7 => withDest .amsk rd fun f => withAux a fun x => .ok (.amsk f x b)
    | 0x8 => withDest .asbyte rd fun f => withZeroB b (withAux a fun x => .ok (.asbyte f x))
    | 0xF => if rd = 0 ∧ a = 0 ∧ b = 0 then .ok .endOp else .error .endOperand
    | _ => .error .reservedOp

/-- The micro-operation a word stands for, if it is valid (R67). -/
def decode (w : Word) : Option Instr :=
  match decodeWord w with
  | .ok i => some i
  | .error _ => none

/-- Format `M` (R61): `op`, `rd`, seven zero bits, `a`, `b`, bit 31 first. -/
def wordM (op : BitVec 4) (rd : BitVec 5) (a b : Byte) : Word := op ++ rd ++ 0#7 ++ a ++ b

/-- The encoder: the one word of a valid micro-operation (R61 to R63). -/
def encode : Instr → Word
  | .uword rd a b => wordM 0x1 rd.bits a b
  | .sword rd a b => wordM 0x2 rd.bits a b
  | .sbyte rd a => wordM 0x3 rd.bits a 0
  | .ubyte rd a => wordM 0x4 rd.bits a 0
  | .pk12l rd a b => wordM 0x5 rd.bits a b
  | .pk12h rd a b => wordM 0x6 rd.bits a b
  | .amsk rd n mask => wordM 0x7 rd.bits n.byte mask
  | .asbyte rd n => wordM 0x8 rd.bits n.byte 0
  | .endOp => wordM 0xF 0 0 0

/-! ## What the decoder reads back from an encoded word -/

/-- The `op` bits of a word of format `M` are its `op`. -/
theorem opBits_wordM (op : BitVec 4) (rd : BitVec 5) (a b : Byte) : opBits (wordM op rd a b) = op := by
  ext i hi
  simp [opBits, wordM]
  grind

/-- The `rd` bits of a word of format `M` are its `rd`. -/
theorem rdBits_wordM (op : BitVec 4) (rd : BitVec 5) (a b : Byte) : rdBits (wordM op rd a b) = rd := by
  ext i hi
  simp [rdBits, wordM]
  grind

/-- The reserved bits of a word of format `M` are zero. -/
theorem zBits_wordM (op : BitVec 4) (rd : BitVec 5) (a b : Byte) : zBits (wordM op rd a b) = 0 := by
  ext i hi
  simp [zBits, wordM]
  grind

/-- The `a` bits of a word of format `M` are its `a`. -/
theorem aBits_wordM (op : BitVec 4) (rd : BitVec 5) (a b : Byte) : aBits (wordM op rd a b) = a := by
  ext i hi
  simp [aBits, wordM]
  grind

/-- The `b` bits of a word of format `M` are its `b`. -/
theorem bBits_wordM (op : BitVec 4) (rd : BitVec 5) (a b : Byte) : bBits (wordM op rd a b) = b := by
  ext i hi
  simp [bBits, wordM]
  grind

/-- The index bits of a field name that field. -/
@[simp] theorem Field.ofIndex_bits (f : Field) : Field.ofIndex f.bits.toNat = some f := by
  cases f <;> rfl

/-- The index byte of an auxiliary register names that register. -/
@[simp] theorem AuxReg.ofByte_byte (x : AuxReg) : AuxReg.ofByte x.byte = some x := by
  cases x <;> rfl

/-- The decoder gives back every valid micro-operation from its word; the canonical program's check rests on it. -/
theorem decode_encode (i : Instr) (h : i.wf = true) : decode (encode i) = some i := by
  cases i with
  | endOp => rfl
  | _ =>
    have h := of_decide_eq_true h
    simp only [Instr.op] at h
    simp [decode, encode, decodeWord, opBits_wordM, rdBits_wordM, zBits_wordM, aBits_wordM, bBits_wordM, withDest,
      withZeroB, withAux, h]

/-! ## The rows of the opcode table -/

/-- The `match` column of R74. -/
def Op.rowMatch : Op → Word
  | .uword => 0x10000000
  | .sword => 0x20000000
  | .sbyte => 0x30000000
  | .ubyte => 0x40000000
  | .pk12l => 0x56800000
  | .pk12h => 0x67000000
  | .amsk => 0x70000000
  | .asbyte => 0x8C000000
  | .endOp => 0xF0000000

/-- The `mask` column of R74. -/
def Op.rowMask : Op → Word
  | .uword => 0xF07F0000
  | .sword => 0xF07F0000
  | .sbyte => 0xF07F00FF
  | .ubyte => 0xF07F00FF
  | .pk12l => 0xFFFF0000
  | .pk12h => 0xFFFF0000
  | .amsk => 0xF07FFC00
  | .asbyte => 0xFFFFFCFF
  | .endOp => 0xFFFFFFFF

/-- R74: a word is a candidate for an operation when `w & mask = match`. -/
def Op.candidate (op : Op) (w : Word) : Bool := decide (w &&& op.rowMask = op.rowMatch)

/-- What the host asks of the decoder: the micro-operation read from a word of `nbits` bits whose value is `w`, every
bit above them zero. `PROG` has whole 32-bit words and no byte view (R45), so the word is the instruction. -/
def decodeTableWord (nbits w : Nat) : Option Instr := decode (BitVec.ofNat 32 (w % 2 ^ nbits))

/-! ## The check of a whole program (R70) -/

/-- The micro-operations of the valid words of a list of words, in order. -/
def instrsOf (ws : List Word) : List Instr := ws.filterMap decode

/-- The destinations of the valid words of a list of words, in order. -/
def destsOf (ws : List Word) : List Field := ws.filterMap fun w => (decode w).bind Instr.dest

/-- Condition 1 of R70: 27 words. -/
def has27Words (ws : List Word) : Bool := ws.length == Config.nField + 1

/-- Condition 2 of R70: every word is valid. -/
def allWordsValid (ws : List Word) : Bool := ws.all fun w => (decode w).isSome

/-- Condition 3 of R70: word 26 is `END` and no word before it is. -/
def endOnlyLast (ws : List Word) : Bool :=
  decide ((ws[Config.nField]?).bind decode = some .endOp) &&
    (ws.take Config.nField).all fun w => decide (decode w ≠ some .endOp)

/-- Condition 4 of R70: the destinations of words 0 to 25 are pairwise distinct. -/
def destsDistinct (ws : List Word) : Bool := decide (destsOf (ws.take Config.nField)).Nodup

/-- R70: a micro-program is well-formed. -/
def programOk (ws : List Word) : Bool :=
  has27Words ws && allWordsValid ws && endOnlyLast ws && destsDistinct ws

end Sys2Proof
end

