-- ==== Sys2Proof/Machine/Program.lean ====
section
/-! DEFINITION. A micro-program: 27 raw words paired with the proof of R70, so that an ill-formed program cannot be an
instance (R71); the canonical program of R123; what a program reads. -/

namespace Sys2Proof

/-- `PROG` of an instance: "a raw program paired with the proof that the check passes" (R71). It is read only (R54). -/
structure Program where
  words : List Word
  ok : programOk words = true
  deriving DecidableEq, Repr

/-- The build of an instance: an ill-formed program is refused (R71). -/
def Program.build (ws : List Word) : Option Program :=
  if h : programOk ws = true then some ⟨ws, h⟩ else none

/-- The micro-operations of a program, in order. -/
def Program.instrs (p : Program) : List Instr := instrsOf p.words

/-- The destinations of a program's words, in order (26 of them, R70). -/
def Program.dests (p : Program) : List Field := destsOf p.words

/-- A list of one extraction for each field, in any order, followed by `END`, is well-formed (R66, R70). -/
theorem programOk_of_fields (fs : List Field) (g : Field → Instr) (hlen : fs.length = 26) (hfs : fs.Nodup)
    (hwf : ∀ f, (g f).wf = true) (hd : ∀ f, (g f).dest = some f) :
    programOk (fs.map (fun f => encode (g f)) ++ [encode .endOp]) = true := by
  have hdec : ∀ f, decode (encode (g f)) = some (g f) := fun f => decode_encode _ (hwf f)
  have hend : decode (encode .endOp) = some .endOp := rfl
  have hne : ∀ f, g f ≠ .endOp := fun f h => by have := hd f; rw [h] at this; cases this
  have hl : (fs.map (fun f => encode (g f))).length = 26 := by simpa using hlen
  have hdests : destsOf (fs.map fun f => encode (g f)) = fs := by
    simp [destsOf, List.filterMap_map, hdec, hd]
  have htake : (fs.map (fun f => encode (g f)) ++ [encode .endOp]).take 26 = fs.map fun f => encode (g f) := by
    rw [← hl, List.take_left]
  have hlast : (fs.map (fun f => encode (g f)) ++ [encode .endOp])[26]? = some (encode .endOp) := by
    rw [← hl, List.getElem?_concat_length]
  simp only [programOk, Config.nField, Bool.and_eq_true, has27Words, allWordsValid, endOnlyLast, destsDistinct, htake,
    hlast, hdests, decide_eq_true hfs]
  simp [hlen, hdec, hend, hne]

/-- The line of the canonical program that loads field `f` (the table of R123). -/
def calInstr (o : OffsetMap) (rangeMask errorMask : Byte) (f : Field) : Instr :=
  match f.opOf with
  | .uword => .uword f (o.msb f) (o.lsb f)
  | .sword => .sword f (o.msb f) (o.lsb f)
  | .sbyte => .sbyte f (o.off f)
  | .ubyte => .ubyte f (o.off f)
  | .pk12l => .pk12l f (o.msb f) (o.lsb f)
  | .pk12h => .pk12h f (o.msb f) (o.lsb f)
  | .amsk => if f = .res_heat_range then .amsk f .aux0 rangeMask else .amsk f .aux2 errorMask
  | .asbyte => .asbyte f .aux1
  | .endOp => .endOp

/-- The words of `CALPROG(OFF, RANGE_MASK, ERROR_MASK)`: the 26 fields in index order, then `END` (R123). -/
def calWords (o : OffsetMap) (rangeMask errorMask : Byte) : List Word :=
  Field.all.map (fun f => encode (calInstr o rangeMask errorMask f)) ++ [encode .endOp]

/-- The canonical program, which the pseudo-instruction `LOADCAL` stands for (R73, R123): well-formed for every offset
map and every pair of masks. -/
def calprog (o : OffsetMap) (rangeMask errorMask : Byte) : Program where
  words := calWords o rangeMask errorMask
  ok := programOk_of_fields Field.all (calInstr o rangeMask errorMask) rfl (by decide)
    (fun f => by cases f <;> rfl) (fun f => by cases f <;> rfl)

/-! ## What a program reads -/

/-- The space of a byte read: `ERRINFO.SRC` is 0 for the buffer and 1 for the auxiliary registers (R22). -/
inductive ReadSrc
  | buffer | aux
  deriving DecidableEq, Repr

/-- The byte reads of a micro-operation in the order it makes them, `a` before `b` (R47, R146). -/
def Instr.reads : Instr → List (ReadSrc × Byte)
  | .uword _ a b => [(.buffer, a), (.buffer, b)]
  | .sword _ a b => [(.buffer, a), (.buffer, b)]
  | .sbyte _ a => [(.buffer, a)]
  | .ubyte _ a => [(.buffer, a)]
  | .pk12l _ a b => [(.buffer, a), (.buffer, b)]
  | .pk12h _ a b => [(.buffer, a), (.buffer, b)]
  | .amsk _ n _ => [(.aux, n.byte)]
  | .asbyte _ n => [(.aux, n.byte)]
  | .endOp => []

/-- The buffer offsets a program's words name (R124). -/
def Program.bufferOffsets (p : Program) : List Nat :=
  (p.instrs.flatMap Instr.reads).filterMap fun r => if r.1 = .buffer then some r.2.toNat else none

/-- `M` of R44 and R124: the largest buffer offset named by any word of the program. -/
def Program.maxOffset (p : Program) : Nat := p.bufferOffsets.foldr max 0

/-- `CAL_LEN`, the length the embedder asks the transport for: OPEN, with `M < CAL_LEN <= 256` (R5). The hardware does
not use it (R44). -/
def Program.calLen (p : Program) : Nat :=
  p.maxOffset + 1 + Config.calLenFree % (Config.bufCap - p.maxOffset)

end Sys2Proof
end

