-- ==== Sys2Proof/Machine/State.lean ====
section
/-! DEFINITION. The state of an instance as plain data: every piece of state of R31, the program it was built with, and
the host's side of the interface; the reasons a step can stop; the state after reset. -/

namespace Sys2Proof.Machine

open Sys2Proof

/-- A file of the 26 record registers, each of exactly its field's width (R10, R14). `none` is the spec's own "no value"
(R31): the register holds nothing until it is written. Log entry 2. -/
structure RegFile where
  par_t1 : Option (BitVec 16) := none
  par_t2 : Option (BitVec 16) := none
  par_t3 : Option (BitVec 8) := none
  par_p1 : Option (BitVec 16) := none
  par_p2 : Option (BitVec 16) := none
  par_p3 : Option (BitVec 8) := none
  par_p4 : Option (BitVec 16) := none
  par_p5 : Option (BitVec 16) := none
  par_p6 : Option (BitVec 8) := none
  par_p7 : Option (BitVec 8) := none
  par_p8 : Option (BitVec 16) := none
  par_p9 : Option (BitVec 16) := none
  par_p10 : Option (BitVec 8) := none
  par_h1 : Option (BitVec 16) := none
  par_h2 : Option (BitVec 16) := none
  par_h3 : Option (BitVec 8) := none
  par_h4 : Option (BitVec 8) := none
  par_h5 : Option (BitVec 8) := none
  par_h6 : Option (BitVec 8) := none
  par_h7 : Option (BitVec 8) := none
  par_gh1 : Option (BitVec 8) := none
  par_gh2 : Option (BitVec 16) := none
  par_gh3 : Option (BitVec 8) := none
  res_heat_range : Option (BitVec 8) := none
  res_heat_val : Option (BitVec 8) := none
  range_sw_err : Option (BitVec 8) := none
  deriving DecidableEq, Repr

/-- The three auxiliary input registers (R24); `none` is "no value" (R31). -/
structure AuxFile where
  aux0 : Option Byte := none
  aux1 : Option Byte := none
  aux2 : Option Byte := none
  deriving DecidableEq, Repr

/-- The buffer space: the bytes that hold a value, by rising offset. An unlisted offset holds no value (R31, R41). -/
abbrev Memory := List Host.Cell

/-- `ERR` (R21): 3 is never produced and cannot be represented (U15). -/
inductive ErrCode
  /-- Code 0: no error since the last `HostStart` or reset. -/
  | noError
  /-- Code 1. -/
  | malformedInput
  /-- Code 2. -/
  | transportFailure
  deriving DecidableEq, Repr

/-- Which input a transport failure concerns: `BUFSEL` or `AUXSEL` (R116). -/
inductive InputSel
  | bufSel | auxSel
  deriving DecidableEq, Repr

/-- The host transactions (R113). -/
inductive HostTxn
  | reset
  | fill (bytes : List Byte)
  | setAux (b0 b1 b2 : Byte)
  | transportFail (sel : InputSel)
  | start
  | readStatus
  | readErrInfo
  | readField (f : Nat)
  | setTFine (v : BitVec Config.tfineW)
  | readTFine
  deriving DecidableEq, Repr

/-- What a transaction returns to the host: `STATUS`, `ERRINFO`, `RDATA` or `T_FINE` (R119, R120, R132). -/
inductive Answer
  | status (v : Byte)
  | errInfo (v : Half)
  | rdata (v : Half)
  | tFine (v : BitVec Config.tfineW)
  deriving DecidableEq, Repr

/-- Whose step comes next: the two agents of R50. -/
inductive Turn
  | sequencer
  | host (t : HostTxn)
  deriving DecidableEq, Repr

/-- The state of an instance. Every field up to `errinfo` is a row of R31. -/
structure State where
  /-- `R[0..25]`, the committed record (R10). -/
  record : RegFile
  /-- `VALID` (R17). -/
  valid : Bool
  /-- `S[0..25]`, the staging file (R14). -/
  staging : RegFile
  /-- `W[0..25]`, the written bitmap, bit f for field f (R14, R15). -/
  written : BitVec 26
  /-- `T_FINE` (R16). -/
  tFine : Option (BitVec Config.tfineW)
  /-- `TFV`, the valid bit of `T_FINE` (R16). -/
  tfv : Bool
  /-- `BUF[0..255]` (R25). -/
  buf : Memory
  /-- `BLEN`, the number of valid bytes in `BUF` (R23). -/
  blen : BitVec 9
  /-- `AUX[0..2]` (R24). -/
  aux : AuxFile
  /-- `AUXV` (R19). -/
  auxv : Bool
  /-- `UPC`, the micro-program counter (R18). -/
  upc : BitVec 5
  /-- `BUSY`: RUN when set, IDLE when clear (R20). -/
  busy : Bool
  /-- `ERR` (R21). -/
  err : ErrCode
  /-- `ERRINFO` (R22). -/
  errinfo : Half
  /-- `PROG`: a parameter of the instance, which no step changes (R26). Log entry 8. -/
  prog : Program
  /-- The model's own: the turns still to come, in order. When none is left the sequencer moves. Log entry 4. -/
  agenda : List Turn
  /-- The model's own: what the last step returned to the host. Log entry 5. -/
  answer : Option Answer
  deriving DecidableEq, Repr

/-- Why the machine stops with a fault. The two exceptions of R140 are not among them: taking one is a next state
(R147, log entry 1). -/
inductive Fault
  /-- Raised by a read of storage that holds no value although its valid bit or `BLEN` says that it does: `BufRead`,
  `AuxRead`, `HostRead`, `HostReadTFine`. No state that a run reaches does this; the spec asks for "a fault on read"
  there (U16). Safe. Log entry 12. -/
  | noValue
  deriving DecidableEq, Repr

/-- Why the machine gives a step no meaning (R9). Every refusal is safe: nothing is claimed of the step. -/
inductive Refusal
  /-- Raised by an arm of `exec` whose instruction has no meaning yet; no arm is left so. Safe. -/
  | notModelled (mnemonic : String)
  /-- Raised by the sequencer's turn while `BUSY = 0`: "the sequencer has no step" (R20, R111). Safe. Log entry 6. -/
  | idle
  /-- Raised by `HostFill`, `HostSetAux`, `HostTransportFail` and `HostStart` while `BUSY = 1` (R20, R113). Safe. -/
  | busy
  /-- Raised by `HostFill` with more than 256 bytes (R114). Safe. -/
  | tooLong
  /-- Raised by `HostRead`, `HostSetTFine` and `HostReadTFine` while `VALID = 0` (R120, R131, R132). Safe. -/
  | notLoaded
  /-- Raised by `HostRead` of an index that names no field, 26 and above (R120). Safe. -/
  | noSuchField
  /-- Raised by `HostReadTFine` while `TFV = 0` (R132). Safe. -/
  | tFineNotSet
  /-- Raised by a meaning whose destination is not bound to its operation: no word encodes such a term (R66, R68).
  Safe. Log entry 11. -/
  | illFormedInstr
  /-- Raised by the sequencer's turn when `UPC` names no valid word of the program: no well-formed program reaches it
  (R71). Safe. Log entry 8. -/
  | illFormedProgram
  deriving DecidableEq, Repr

/-- The instance right after reset (R31, R160), built with the canonical program of the OPEN parameters (R5, R123): no
register, buffer byte or auxiliary byte holds a value (R161). -/
def State.reset : State where
  record := {}
  valid := false
  staging := {}
  written := 0
  tFine := none
  tfv := false
  buf := []
  blen := 0
  aux := {}
  auxv := false
  upc := 0
  busy := false
  err := .noError
  errinfo := 0
  prog := calprog Config.off Config.rangeMask Config.errorMask
  agenda := []
  answer := none

end Sys2Proof.Machine
end

