-- ==== Sys2Proof/Machine/Flags.lean ====
section
/-! DEFINITION. The status registers as the host reads them (R19, R22) and the words they are made of. -/

namespace Sys2Proof.Machine

open Sys2Proof

/-- The two bits of `ERR` (R21, R140). -/
def ErrCode.bits : ErrCode → BitVec 2
  | .noError => 0
  | .malformedInput => 1
  | .transportFailure => 2

/-- `ERRINFO.SRC` (R22). -/
def srcBit : ReadSrc → BitVec 1
  | .buffer => 0
  | .aux => 1

/-- `STATUS`: bits 7:6 zero, 5:4 `ERR`, 3 `TFV`, 2 `AUXV`, 1 `VALID`, 0 `BUSY` (R19). -/
def statusWord (s : State) : Byte :=
  0#2 ++ s.err.bits ++ BitVec.ofBool s.tfv ++ BitVec.ofBool s.auxv ++ BitVec.ofBool s.valid ++ BitVec.ofBool s.busy

/-- `ERRINFO`: bits 15:14 zero, 13:9 `UPC`, 8 `SRC`, 7:0 `OFF` (R22, R147). -/
def errInfoWord (upc : BitVec 5) (src : ReadSrc) (off : Byte) : Half :=
  0#2 ++ upc ++ srcBit src ++ off

end Sys2Proof.Machine
end

