-- ==== Sys2Proof/Machine/Operands.lean ====
section
/-! DEFINITION. The Bit/Byte Codec and the datapath functions (R80 to R87), over unbounded integers as the source writes
them, and the narrowing to a register at the end (R6, R7); the widening of the host's read bus (R120). -/

namespace Sys2Proof.Machine

open Sys2Proof

/-- `bits_N(z)`: the N-bit vector of `z mod 2^N` (R6). -/
def bitsN (n : Nat) (z : Int) : BitVec n := BitVec.ofInt n z

/-- `sign_extend(value, bit_width)` (R80). The argument is an n-bit vector, so that a value out of range cannot be
written (U4). -/
def signExtend {n : Nat} (v : BitVec n) : Int :=
  if v.toNat ≥ 2 ^ (n - 1) then (v.toNat : Int) - 2 ^ n else v.toNat

/-- The unsigned word `(msb << 8) | lsb` of R82. -/
def assembledWord (msb lsb : Byte) : Nat := (msb.toNat <<< 8) ||| lsb.toNat

/-- `assemble_word(msb_byte, lsb_byte, 16, signed)` (R82); 16 is the only width the block has (R83). -/
def assembleWord (msb lsb : Byte) (signed : Bool) : Int :=
  if signed then signExtend (BitVec.ofNat 16 (assembledWord msb lsb)) else assembledWord msb lsb

/-- `lo4(x)`, the low nibble of a byte (R85). -/
def lo4 (x : Byte) : Nat := x.toNat &&& Config.nibMask

/-- `hi4(x)`, the high nibble of a byte (R85). -/
def hi4 (x : Byte) : Nat := x.toNat >>> Config.humShift

/-- `pack12(m, nib) = (m << 4) | nib` (R86). -/
def pack12 (m : Byte) (nib : Nat) : Nat := (m.toNat <<< Config.humShift) ||| nib

/-- `mask_shift(raw, mask) = (raw & mask) >> 4`; no sign extension follows (R87, C2). -/
def maskShift (raw mask : Byte) : Nat := (raw.toNat &&& mask.toNat) >>> Config.derivedShift

/-- `RDATA` of a register of field `f`: sign-extended for i8, zero-extended for u8, unchanged for the words (R120). -/
def rdata (f : Field) (v : BitVec f.width) : Half :=
  match f.ty with
  | .i8 => v.signExtend 16
  | .u8 => v.setWidth 16
  | .i16 => v.setWidth 16
  | .u16 => v.setWidth 16

end Sys2Proof.Machine
end

