-- ==== Sys2Proof/Machine/Ops.lean ====
section
/-! DEFINITION. The named operations: the record files, the buffer and auxiliary spaces, `BufRead`, `AuxRead`, `Stage`,
taking the exception `MalformedInput` (the abort of R147), the commit of `END`, and the start of a cycle. -/

namespace Sys2Proof.Machine

open Sys2Proof

/-! ## Record files -/

/-- Read of one register of a record file; `none` is "no value" (R10, R31). -/
def RegFile.get (g : RegFile) : (f : Field) → Option (BitVec f.width)
  | .par_t1 => g.par_t1
  | .par_t2 => g.par_t2
  | .par_t3 => g.par_t3
  | .par_p1 => g.par_p1
  | .par_p2 => g.par_p2
  | .par_p3 => g.par_p3
  | .par_p4 => g.par_p4
  | .par_p5 => g.par_p5
  | .par_p6 => g.par_p6
  | .par_p7 => g.par_p7
  | .par_p8 => g.par_p8
  | .par_p9 => g.par_p9
  | .par_p10 => g.par_p10
  | .par_h1 => g.par_h1
  | .par_h2 => g.par_h2
  | .par_h3 => g.par_h3
  | .par_h4 => g.par_h4
  | .par_h5 => g.par_h5
  | .par_h6 => g.par_h6
  | .par_h7 => g.par_h7
  | .par_gh1 => g.par_gh1
  | .par_gh2 => g.par_gh2
  | .par_gh3 => g.par_gh3
  | .res_heat_range => g.res_heat_range
  | .res_heat_val => g.res_heat_val
  | .range_sw_err => g.range_sw_err

/-- Write of one register of a record file; every other register keeps what it holds (R12, R15). -/
def RegFile.set (g : RegFile) : (f : Field) → BitVec f.width → RegFile
  | .par_t1, v => { g with par_t1 := some v }
  | .par_t2, v => { g with par_t2 := some v }
  | .par_t3, v => { g with par_t3 := some v }
  | .par_p1, v => { g with par_p1 := some v }
  | .par_p2, v => { g with par_p2 := some v }
  | .par_p3, v => { g with par_p3 := some v }
  | .par_p4, v => { g with par_p4 := some v }
  | .par_p5, v => { g with par_p5 := some v }
  | .par_p6, v => { g with par_p6 := some v }
  | .par_p7, v => { g with par_p7 := some v }
  | .par_p8, v => { g with par_p8 := some v }
  | .par_p9, v => { g with par_p9 := some v }
  | .par_p10, v => { g with par_p10 := some v }
  | .par_h1, v => { g with par_h1 := some v }
  | .par_h2, v => { g with par_h2 := some v }
  | .par_h3, v => { g with par_h3 := some v }
  | .par_h4, v => { g with par_h4 := some v }
  | .par_h5, v => { g with par_h5 := some v }
  | .par_h6, v => { g with par_h6 := some v }
  | .par_h7, v => { g with par_h7 := some v }
  | .par_gh1, v => { g with par_gh1 := some v }
  | .par_gh2, v => { g with par_gh2 := some v }
  | .par_gh3, v => { g with par_gh3 := some v }
  | .res_heat_range, v => { g with res_heat_range := some v }
  | .res_heat_val, v => { g with res_heat_val := some v }
  | .range_sw_err, v => { g with range_sw_err := some v }

/-- Whether a field's bit of `W` is set (R15). -/
def State.isWritten (s : State) (f : Field) : Bool := s.written.getLsbD f.index

/-! ## The buffer space -/

/-- The byte at an offset; an unlisted offset holds no value (R31, R41). -/
def Memory.read : Memory → Nat → Option Byte
  | [], _ => none
  | (a, x) :: m, k => if a = k then some x else Memory.read m k

/-- The bytes of a sequence at rising offsets from `i`. -/
def Memory.fillFrom (i : Nat) : List Byte → Memory
  | [] => []
  | x :: xs => (i, x) :: Memory.fillFrom (i + 1) xs

/-- The contents of `BUF` after `HostFill(bytes)`: offset `i` holds `bytes[i]`, every other offset holds no value
(R114). It is the only write to `BUF` that leaves a value. -/
def Memory.fill (bytes : List Byte) : Memory := Memory.fillFrom 0 bytes

/-- The canonical form: offsets strictly rising, and inside the 256 bytes of `BUF`. An entry never equals what an
unlisted offset reads as, which is no value at all. -/
def Memory.wf (m : Memory) : Bool :=
  decide ((m.map Prod.fst).Pairwise (· < ·)) && m.all fun c => decide (c.1 < Config.bufCap)

/-! ## The auxiliary space -/

/-- The byte of an auxiliary register; `none` is "no value" (R24, R31). -/
def AuxFile.get (x : AuxFile) : AuxReg → Option Byte
  | .aux0 => x.aux0
  | .aux1 => x.aux1
  | .aux2 => x.aux2

/-! ## Byte reads -/

/-- What a byte read gives: a byte, the raise of `MalformedInput(SRC, OFF)`, or storage without a value (U16). -/
inductive ReadResult
  | byte (x : Byte)
  | malformed (src : ReadSrc) (off : Byte)
  | noValue
  deriving DecidableEq, Repr

/-- A byte if the storage holds one. -/
def ReadResult.ofStorage : Option Byte → ReadResult
  | some x => .byte x
  | none => .noValue

/-- `BufRead(k)` (R43). -/
def bufRead (k : Byte) (s : State) : ReadResult :=
  if k.toNat ≥ s.blen.toNat then .malformed .buffer k else .ofStorage (s.buf.read k.toNat)

/-- `AuxRead(x)` (R42). -/
def auxRead (x : AuxReg) (s : State) : ReadResult :=
  if s.auxv then .ofStorage (s.aux.get x) else .malformed .aux x.byte

/-! ## Taking an exception, and the way back -/

/-- Every staged value is discarded: `W` is zero and no staging register holds a value (R15, R147). Log entry 3. -/
def State.discardStaged (s : State) : State := { s with staging := {}, written := 0 }

/-- The abort sequence of R147, the block's trap entry: `ERR`, `ERRINFO`, `W`, `BUSY`; `UPC` keeps the faulting index and
everything else is unchanged. There is no handler and no return (R149): the way back is `HostStart`. -/
def State.abort (s : State) (src : ReadSrc) (off : Byte) : State :=
  { s.discardStaged with
    err := .malformedInput
    errinfo := errInfoWord s.upc src off
    busy := false }

/-- The start of a calibration cycle, which is also the recovery after an abort (R118, R149). -/
def State.startCycle (s : State) : State :=
  { s.discardStaged with
    busy := true
    upc := 0
    err := .noError
    errinfo := 0 }

/-! ## Writing -/

/-- `Stage(f, bv)` (R15). -/
def State.stage (s : State) (f : Field) (bv : BitVec f.width) : State :=
  { s with
    staging := s.staging.set f bv
    written := s.written ||| (1#26 <<< f.index) }

/-- `upc <- UPC + 1` (R18). Log entry 15. -/
def State.advance (s : State) : State := { s with upc := s.upc + 1 }

/-- The commit of `END`, one atomic step (R110). -/
def State.commit (s : State) : State :=
  { s.discardStaged with
    record := s.staging
    valid := true
    tfv := false
    busy := false }

/-! ## The shape of a meaning -/

/-- R66: an operation on a destination it is not bound to is no micro-operation. -/
def bound (op : Op) (rd : Field) (k : Host.Outcome State Fault Refusal) : Host.Outcome State Fault Refusal :=
  if rd.opOf = op then k else .refused .illFormedInstr

/-- Go on with the byte of a read; on a raise nothing else happens but the abort (R8, R147). -/
def withByte (r : ReadResult) (s : State) (k : Byte → Host.Outcome State Fault Refusal) :
    Host.Outcome State Fault Refusal :=
  match r with
  | .byte x => k x
  | .malformed src off => .next (s.abort src off)
  | .noValue => .fault .noValue

/-- The end of every extraction: `Stage(rd, bits_N(v))`, then `upc <- UPC + 1`. -/
def finish (rd : Field) (v : Int) (s : State) : Host.Outcome State Fault Refusal :=
  .next (s.stage rd (bitsN rd.width v)).advance

/-- The shape of the four two-byte operations: `a`, the more significant byte, is read before `b` (R47, R146). -/
def extractPair (op : Op) (rd : Field) (a b : Byte) (value : Byte → Byte → Int) (s : State) :
    Host.Outcome State Fault Refusal :=
  bound op rd <| withByte (bufRead a s) s fun m => withByte (bufRead b s) s fun l => finish rd (value m l) s

/-- The shape of the two one-byte buffer operations. -/
def extractByte (op : Op) (rd : Field) (a : Byte) (value : Byte → Int) (s : State) :
    Host.Outcome State Fault Refusal :=
  bound op rd <| withByte (bufRead a s) s fun x => finish rd (value x) s

/-- The shape of the two operations on an auxiliary register. -/
def extractAux (op : Op) (rd : Field) (n : AuxReg) (value : Byte → Int) (s : State) :
    Host.Outcome State Fault Refusal :=
  bound op rd <| withByte (auxRead n s) s fun raw => finish rd (value raw) s

end Sys2Proof.Machine
end

