-- ==== Sys2Proof/Machine/AuxExtract.lean ====
section
/-! DEFINITION. Derived fields from the auxiliary raw bytes: `AMSK`, `ASBYTE` (R105, R106). -/

namespace Sys2Proof.Machine

open Sys2Proof

/-- `AMSK rd, auxN, mask`: `(raw & mask) >> 4` (R105). -/
def execAmsk (rd : Field) (n : AuxReg) (mask : Byte) (s : State) : Host.Outcome State Fault Refusal :=
  extractAux .amsk rd n (fun raw => maskShift raw mask) s

/-- `ASBYTE rd, auxN`: signed-byte copy (R106). -/
def execAsbyte (rd : Field) (n : AuxReg) (s : State) : Host.Outcome State Fault Refusal :=
  extractAux .asbyte rd n (fun raw => signExtend raw) s

end Sys2Proof.Machine
end

