-- ==== Sys2Proof/Machine/BlockExtract.lean ====
section
/-! DEFINITION. Word and byte extraction from the buffer: `UWORD`, `SWORD`, `SBYTE`, `UBYTE` (R90 to R93). -/

namespace Sys2Proof.Machine

open Sys2Proof

/-- `UWORD rd, a, b`: plain unsigned word (R90). -/
def execUword (rd : Field) (a b : Byte) (s : State) : Host.Outcome State Fault Refusal :=
  extractPair .uword rd a b (fun m l => assembleWord m l false) s

/-- `SWORD rd, a, b`: signed word (R91). -/
def execSword (rd : Field) (a b : Byte) (s : State) : Host.Outcome State Fault Refusal :=
  extractPair .sword rd a b (fun m l => assembleWord m l true) s

/-- `SBYTE rd, a`: signed byte (R92). -/
def execSbyte (rd : Field) (a : Byte) (s : State) : Host.Outcome State Fault Refusal :=
  extractByte .sbyte rd a (fun x => signExtend x) s

/-- `UBYTE rd, a`: raw unsigned byte (R93). -/
def execUbyte (rd : Field) (a : Byte) (s : State) : Host.Outcome State Fault Refusal :=
  extractByte .ubyte rd a (fun x => x.toNat) s

end Sys2Proof.Machine
end

