-- ==== Sys2Proof/Machine/EndLoad.lean ====
section
/-! DEFINITION. `END`: commit the staged record and stop (R110). -/

namespace Sys2Proof.Machine

open Sys2Proof

/-- `END` (R110): it reads no input and cannot raise. -/
def execEnd (s : State) : Host.Outcome State Fault Refusal := .next s.commit

end Sys2Proof.Machine
end

