-- ==== Sys2Proof/Machine/Packed12.lean ====
section
/-! DEFINITION. Packed 12-bit extraction: `PK12L`, `PK12H` (R100, R101). -/

namespace Sys2Proof.Machine

open Sys2Proof

/-- `PK12L rd, a, b`: `(m << 4) | (l & 0x0F)` (R100). -/
def execPk12l (rd : Field) (a b : Byte) (s : State) : Host.Outcome State Fault Refusal :=
  extractPair .pk12l rd a b (fun m l => pack12 m (lo4 l)) s

/-- `PK12H rd, a, b`: `(m << 4) | (l >> 4)` (R101). -/
def execPk12h (rd : Field) (a b : Byte) (s : State) : Host.Outcome State Fault Refusal :=
  extractPair .pk12h rd a b (fun m l => pack12 m (hi4 l)) s

end Sys2Proof.Machine
end

