-- ==== Sys2Proof/Machine/Dispatch.lean ====
section
/-! DEFINITION. One arm per micro-operation. -/

namespace Sys2Proof.Machine

open Sys2Proof

/-- The meaning of a micro-operation (R111); whether it is enabled is the sequencer's affair (Step.lean). -/
def exec (i : Instr) (s : State) : Host.Outcome State Fault Refusal :=
  match i with
  | .uword rd a b => Sys2Proof.Machine.execUword rd a b s
  | .sword rd a b => Sys2Proof.Machine.execSword rd a b s
  | .sbyte rd a => Sys2Proof.Machine.execSbyte rd a s
  | .ubyte rd a => Sys2Proof.Machine.execUbyte rd a s
  | .pk12l rd a b => Sys2Proof.Machine.execPk12l rd a b s
  | .pk12h rd a b => Sys2Proof.Machine.execPk12h rd a b s
  | .amsk rd n mask => Sys2Proof.Machine.execAmsk rd n mask s
  | .asbyte rd n => Sys2Proof.Machine.execAsbyte rd n s
  | .endOp => Sys2Proof.Machine.execEnd s

end Sys2Proof.Machine
end

