-- ==== Sys2Proof/Machine/Fetch.lean ====
section
/-! DEFINITION. The sequencer's fetch and decode (R111), and the building of an instance around one word. -/

namespace Sys2Proof.Machine

open Sys2Proof

/-- `w = PROG[UPC]`; the read has no side effect (R48, R111). An index above 26 names no word. -/
def fetch (s : State) : Option Word := s.prog.words[s.upc.toNat]?

/-- The micro-operation at `UPC`. In a well-formed program it always exists for `UPC` 0 to 26 (R70, R111). -/
def fetchInstr (s : State) : Option Instr := (fetch s).bind decode

/-- An instance built with program `p` and just reset (R26, R71, R160). -/
def State.built (p : Program) : State := { State.reset with prog := p }

/-- A valid micro-operation for field `f` with zero operands, to fill the other words of a program. -/
def fillerInstr (f : Field) : Instr := calInstr ⟨fun _ => 0, fun _ => 0, fun _ => 0⟩ 0 0 f

/-- The words of a program that holds extraction word `w` of field `rd` at index `k`, a filler word for every other field
around it, and `END` last: what R70 asks of a program in which `w` can run. -/
def wordsAround (w : Word) (rd : Field) (k : Nat) : List Word :=
  let others := (Field.all.filter fun f => decide (f ≠ rd)).map fun f => encode (fillerInstr f)
  others.take k ++ w :: others.drop k ++ [encode .endOp]

/-- The state in which the sequencer's very next step runs the word `w`: `BUSY = 1`, no other turn pending, and `w` at
`PROG[UPC]` of a well-formed program. `END` stands at index 26 of the program the instance has, so `UPC` is 26; an
extraction word stands where `UPC` points, or at 25 if `UPC` points at `END`. A word that is no micro-operation stands
in no well-formed program (R71): `UPC` then names no word, and the step refuses. Log entry 8. -/
def State.withWord (s : State) (w : Word) : State :=
  let run : State := { s with busy := true, agenda := [] }
  let unplaced : State := { run with upc := 31 }
  match decode w with
  | some .endOp => { run with upc := 26 }
  | some i =>
    match i.dest with
    | some rd =>
      let k := min s.upc.toNat 25
      match Program.build (wordsAround w rd k) with
      | some p => { run with prog := p, upc := BitVec.ofNat 5 k }
      | none => unplaced
    | none => unplaced
  | none => unplaced

end Sys2Proof.Machine
end

