-- ==== Sys2Proof/Machine/Transactions.lean ====
section
/-! DEFINITION. The host transactions (R113 to R120, R131, R132, R160), one definition each: a refusal when the
precondition fails, else the effect or the answer. -/

namespace Sys2Proof.Machine

open Sys2Proof

/-- The precondition `BUSY = 0` of R113. -/
def whenIdle (s : State) (k : Host.Outcome State Fault Refusal) : Host.Outcome State Fault Refusal :=
  if s.busy then .refused .busy else k

/-- The precondition `VALID = 1` of R113. -/
def whenLoaded (s : State) (k : Host.Outcome State Fault Refusal) : Host.Outcome State Fault Refusal :=
  if s.valid then k else .refused .notLoaded

/-- The answer of a read transaction, which changes nothing (R119, R120, R132). -/
def State.answering (s : State) (a : Answer) : State := { s with answer := some a }

/-- `Reset` (R160): every piece of state takes its value of R31; the program is no state and stays (R26). -/
def txnReset (s : State) : Host.Outcome State Fault Refusal :=
  .next { State.reset with prog := s.prog, agenda := s.agenda }

/-- `HostFill(bytes)` (R114). -/
def txnFill (bytes : List Byte) (s : State) : Host.Outcome State Fault Refusal :=
  whenIdle s <|
    if bytes.length ≤ Config.bufCap then
      .next { s with buf := Memory.fill bytes, blen := BitVec.ofNat 9 bytes.length }
    else .refused .tooLong

/-- `HostSetAux(b0, b1, b2)` (R115). -/
def txnSetAux (b0 b1 b2 : Byte) (s : State) : Host.Outcome State Fault Refusal :=
  whenIdle s <| .next { s with aux := ⟨some b0, some b1, some b2⟩, auxv := true }

/-- The input a transport failure concerns is invalidated: it holds no value (R116). -/
def State.invalidate (s : State) : InputSel → State
  | .bufSel => { s with buf := [], blen := 0 }
  | .auxSel => { s with aux := {}, auxv := false }

/-- `HostTransportFail(sel)`: the delivery of `TransportFailure` (R116, R142). -/
def txnTransportFail (sel : InputSel) (s : State) : Host.Outcome State Fault Refusal :=
  whenIdle s <| .next { s.invalidate sel with err := .transportFailure, errinfo := 0 }

/-- `HostStart` (R118). -/
def txnStart (s : State) : Host.Outcome State Fault Refusal :=
  whenIdle s <| .next s.startCycle

/-- `HostReadStatus` (R119). -/
def txnReadStatus (s : State) : Host.Outcome State Fault Refusal :=
  .next (s.answering (.status (statusWord s)))

/-- `HostReadErrInfo` (R119). -/
def txnReadErrInfo (s : State) : Host.Outcome State Fault Refusal :=
  .next (s.answering (.errInfo s.errinfo))

/-- `HostRead(f)` (R120). -/
def txnReadField (n : Nat) (s : State) : Host.Outcome State Fault Refusal :=
  whenLoaded s <|
    match Field.ofIndex n with
    | none => .refused .noSuchField
    | some f =>
      match s.record.get f with
      | some v => .next (s.answering (.rdata (rdata f v)))
      | none => .fault .noValue

/-- `HostSetTFine(v)` (R131). -/
def txnSetTFine (v : BitVec Config.tfineW) (s : State) : Host.Outcome State Fault Refusal :=
  whenLoaded s <| .next { s with tFine := some v, tfv := true }

/-- `HostReadTFine` (R132). -/
def txnReadTFine (s : State) : Host.Outcome State Fault Refusal :=
  whenLoaded s <|
    if s.tfv then
      match s.tFine with
      | some v => .next (s.answering (.tFine v))
      | none => .fault .noValue
    else .refused .tFineNotSet

/-- The transactions of R113, one arm each. -/
def transact (t : HostTxn) (s : State) : Host.Outcome State Fault Refusal :=
  match t with
  | .reset => txnReset s
  | .fill bytes => txnFill bytes s
  | .setAux b0 b1 b2 => txnSetAux b0 b1 b2 s
  | .transportFail sel => txnTransportFail sel s
  | .start => txnStart s
  | .readStatus => txnReadStatus s
  | .readErrInfo => txnReadErrInfo s
  | .readField n => txnReadField n s
  | .setTFine v => txnSetTFine v s
  | .readTFine => txnReadTFine s

end Sys2Proof.Machine
end

