-- ==== Sys2Proof/Machine/Step.lean ====
section
/-! DEFINITION. One step of the instance: the sequencer's, or one host transaction (R50, R111, R113). -/

namespace Sys2Proof.Machine

open Sys2Proof

/-- The sequencer's step: enabled exactly when `BUSY = 1`; fetch, decode, and the one rule of the mnemonic (R111). -/
def sequencerStep (s : State) : Host.Outcome State Fault Refusal :=
  if s.busy then
    match fetchInstr s with
    | some i => exec i s
    | none => .refused .illFormedProgram
  else .refused .idle

/-- The state a turn acts on: the turn is taken from the agenda, and the last answer is gone. -/
def State.takeTurn (s : State) : State := { s with agenda := s.agenda.tail, answer := none }

/-- One atomic step (R50): the next turn of the agenda, or the sequencer's when no turn is left. -/
def step (s : State) : Host.Outcome State Fault Refusal :=
  match s.agenda with
  | .host t :: _ => transact t s.takeTurn
  | .sequencer :: _ => sequencerStep s.takeTurn
  | [] => sequencerStep s.takeTurn

/-- `s` with the word `w` of `nbits` bits, every higher bit zero, where the next step fetches it. -/
def State.withFetchWord (s : State) (nbits w : Nat) : State :=
  s.withWord (BitVec.ofNat 32 (w % 2 ^ nbits))

end Sys2Proof.Machine
end

