-- ==== Sys2Proof/Machine/Assembler.lean ====
section
/-! DEFINITION. The assembler syntax of R72 and the pseudo-instruction `LOADCAL` of R73, over a line as a list of
characters. Log entry 16 says what the lexical rules leave open. -/

namespace Sys2Proof.Machine

open Sys2Proof

/-- What one source line stands for. -/
inductive AsmLine
  /-- Nothing but blanks and a comment. -/
  | blank
  | instr (i : Instr)
  /-- The pseudo-instruction `LOADCAL` (R73). -/
  | loadcal
  | rejected
  deriving DecidableEq, Repr

/-- A character that separates the mnemonic from its operands. -/
def isBlank (c : Char) : Bool := c = ' ' || c = '\t'

/-- A text without the blanks at its two ends. -/
def trimBlanks (cs : List Char) : List Char :=
  ((cs.dropWhile isBlank).reverse.dropWhile isBlank).reverse

/-- The pieces of a text between its commas. -/
def splitCommas : List Char → List (List Char)
  | [] => [[]]
  | c :: cs =>
    match splitCommas cs with
    | [] => [[c]]
    | t :: ts => if c = ',' then [] :: t :: ts else (c :: t) :: ts

/-- The value of a digit of base 10 or 16. -/
def digitValue (base : Nat) (c : Char) : Option Nat :=
  let n := c.toNat
  let d :=
    if '0'.toNat ≤ n ∧ n ≤ '9'.toNat then n - '0'.toNat
    else if 'a'.toNat ≤ n ∧ n ≤ 'f'.toNat then n - 'a'.toNat + 10
    else if 'A'.toNat ≤ n ∧ n ≤ 'F'.toNat then n - 'A'.toNat + 10
    else base
  if d < base then some d else none

/-- The value of a sequence of digits, continued from `acc`. -/
def digitsValue (base : Nat) (acc : Nat) : List Char → Option Nat
  | [] => some acc
  | c :: cs =>
    match digitValue base c with
    | some d => digitsValue base (acc * base + d) cs
    | none => none

/-- A decimal or `0x` hexadecimal number (R72). -/
def parseNumber : List Char → Option Nat
  | [] => none
  | '0' :: 'x' :: c :: cs => digitsValue 16 0 (c :: cs)
  | c :: cs => digitsValue 10 0 (c :: cs)

/-- An offset or a mask, 0 to 255 (R72). -/
def parseByte (cs : List Char) : Option Byte :=
  match parseNumber cs with
  | some n => if n < 256 then some (BitVec.ofNat 8 n) else none
  | none => none

/-- A destination, written as the field's name (R72). -/
def parseField (cs : List Char) : Option Field :=
  Field.all.find? fun f => decide (f.name.toList = cs)

/-- An auxiliary index, written `aux0`, `aux1` or `aux2` (R72). -/
def parseAux (cs : List Char) : Option AuxReg :=
  if cs = "aux0".toList then some .aux0
  else if cs = "aux1".toList then some .aux1
  else if cs = "aux2".toList then some .aux2
  else none

/-- The mnemonics (R63). -/
def parseMnemonic (cs : List Char) : Option Op :=
  if cs = "UWORD".toList then some .uword
  else if cs = "SWORD".toList then some .sword
  else if cs = "SBYTE".toList then some .sbyte
  else if cs = "UBYTE".toList then some .ubyte
  else if cs = "PK12L".toList then some .pk12l
  else if cs = "PK12H".toList then some .pk12h
  else if cs = "AMSK".toList then some .amsk
  else if cs = "ASBYTE".toList then some .asbyte
  else if cs = "END".toList then some .endOp
  else none

/-- The forms of R72: the operands each mnemonic takes, the more significant offset first. -/
def parseOperands (op : Op) (ts : List (List Char)) : Option Instr :=
  match op, ts with
  | .uword, [f, a, b] => do return .uword (← parseField f) (← parseByte a) (← parseByte b)
  | .sword, [f, a, b] => do return .sword (← parseField f) (← parseByte a) (← parseByte b)
  | .sbyte, [f, a] => do return .sbyte (← parseField f) (← parseByte a)
  | .ubyte, [f, a] => do return .ubyte (← parseField f) (← parseByte a)
  | .pk12l, [f, a, b] => do return .pk12l (← parseField f) (← parseByte a) (← parseByte b)
  | .pk12h, [f, a, b] => do return .pk12h (← parseField f) (← parseByte a) (← parseByte b)
  | .amsk, [f, n, m] => do return .amsk (← parseField f) (← parseAux n) (← parseByte m)
  | .asbyte, [f, n] => do return .asbyte (← parseField f) (← parseAux n)
  | .endOp, [] => some .endOp
  | _, _ => none

/-- What a mnemonic and its operands stand for; a line whose field is not bound to its mnemonic is rejected (R72). -/
def assembleParts (mnemonic : List Char) (operands : List (List Char)) : AsmLine :=
  if mnemonic = "LOADCAL".toList ∧ operands = [] then .loadcal
  else
    match parseMnemonic mnemonic with
    | none => .rejected
    | some op =>
      match parseOperands op operands with
      | none => .rejected
      | some i => if i.wf then .instr i else .rejected

/-- One line: `;` starts a comment, operands are separated by commas (R72). -/
def assembleLine (cs : List Char) : AsmLine :=
  let line := trimBlanks (cs.takeWhile fun c => decide (c ≠ ';'))
  let mnemonic := line.takeWhile fun c => !isBlank c
  let rest := trimBlanks (line.dropWhile fun c => !isBlank c)
  let operands := if rest = [] then [] else (splitCommas rest).map trimBlanks
  if line = [] then .blank else assembleParts mnemonic operands

/-- The words of a source text, one line a micro-operation; `LOADCAL` stands for the whole canonical program (R73). -/
def assemble (o : OffsetMap) (rangeMask errorMask : Byte) : List (List Char) → Option (List Word)
  | [] => some []
  | l :: ls =>
    match assembleLine l, assemble o rangeMask errorMask ls with
    | .blank, some ws => some ws
    | .instr i, some ws => some (encode i :: ws)
    | .loadcal, some ws => some (calWords o rangeMask errorMask ++ ws)
    | _, _ => none

end Sys2Proof.Machine
end

