-- ==== Sys2Proof/Safety.lean ====
section
/-! DEFINITION. What claims are stated in: the invariant of every reachable state, what one micro-operation reads and
yields, the first failing read of a cycle, and a cycle as a run of steps. -/

namespace Sys2Proof.Machine

open Sys2Proof

/-! ## The invariant -/

/-- The "range of value" column of R10. -/
def fieldRange : Field → Int × Int
  | .par_h1 | .par_h2 => (0, 4095)
  | .res_heat_range | .range_sw_err => (0, 15)
  | f =>
    match f.ty with
    | .u8 => (0, 255)
    | .i8 => (-128, 127)
    | .u16 => (0, 65535)
    | .i16 => (-32768, 32767)

/-- Every value a record file holds lies in its field's range (R10, R11). -/
def RegFile.inRange (g : RegFile) : Prop :=
  ∀ (f : Field) (v : BitVec f.width), g.get f = some v → (fieldRange f).1 ≤ f.val v ∧ f.val v ≤ (fieldRange f).2

/-- What every reachable state satisfies, whatever the program and the host do. -/
structure State.Inv (s : State) : Prop where
  /-- `BUF` is in canonical form. -/
  buf_wf : s.buf.wf = true
  /-- `BUF[k]` holds a value exactly when `k < BLEN` (R23, R41). -/
  buf_held : ∀ k, (s.buf.read k).isSome = decide (k < s.blen.toNat)
  /-- `BLEN` is 0 to 256 (R23). -/
  blen_le : s.blen.toNat ≤ 256
  /-- `AUXV = 1` exactly when the three auxiliary registers hold bytes (R19). -/
  aux_held : ∀ x, (s.aux.get x).isSome = s.auxv
  /-- `VALID = 1` exactly when every `R[f]` holds a value (R17). -/
  record_held : ∀ f, (s.record.get f).isSome = s.valid
  /-- Every coefficient is in its range (R10, R11). -/
  record_range : s.record.inRange
  /-- `W[f] = 1` exactly when `S[f]` holds a value (R15). -/
  staging_held : ∀ f, (s.staging.get f).isSome = s.isWritten f
  /-- Every staged value is in its range. -/
  staging_range : s.staging.inRange
  /-- `TFV = 1` only over a loaded record, and then `T_FINE` holds a value (R16, R131). -/
  tfv_held : s.tfv = true → s.valid = true ∧ s.tFine.isSome = true
  /-- `UPC` is 0 to 26 (R18). -/
  upc_le : s.upc.toNat ≤ 26
  /-- In RUN the staged fields are exactly the destinations of the words before `UPC` (R15, R70, R112). -/
  run_staged : s.busy = true → ∀ f, s.isWritten f = true ↔ f ∈ s.prog.dests.take s.upc.toNat
  /-- In IDLE nothing is staged (R15). -/
  idle_unstaged : s.busy = false → s.written = 0
  /-- `ERRINFO[15:14]` is zero, and its `UPC` field is the index of an extraction word, 0 to 25 (R22). -/
  errinfo_fields : s.errinfo.toNat / 512 ≤ 25
  /-- `ERRINFO` is zero unless `ERR = 1` (R22). -/
  errinfo_zero : s.err ≠ .malformedInput → s.errinfo = 0
  /-- No error is recorded in RUN (R21, R118). -/
  run_noError : s.busy = true → s.err = .noError

/-! ## One micro-operation -/

/-- The bytes that `BLEN` and `AUXV` promise are there (R19, R23): part of the invariant, all that the meanings need. -/
def State.Held (s : State) : Prop :=
  (∀ k, k < s.blen.toNat → (s.buf.read k).isSome = true) ∧ (s.auxv = true → ∀ x, (s.aux.get x).isSome = true)

/-- Whether a read fails: `k >= BLEN`, or `AUXV = 0` (R42, R43). -/
def State.readFails (s : State) (r : ReadSrc × Byte) : Bool :=
  match r.1 with
  | .buffer => decide (r.2.toNat ≥ s.blen.toNat)
  | .aux => !s.auxv

/-- The bits a micro-operation yields for its destination `f`, from the bytes `BUF` and `AUX` hold (R90 to R106). -/
def State.resultBits (s : State) (i : Instr) (f : Field) : Option (BitVec f.width) :=
  match i with
  | .uword _ a b => do
    let m ← s.buf.read a.toNat
    let l ← s.buf.read b.toNat
    return bitsN f.width (assembleWord m l false)
  | .sword _ a b => do
    let m ← s.buf.read a.toNat
    let l ← s.buf.read b.toNat
    return bitsN f.width (assembleWord m l true)
  | .sbyte _ a => do
    let x ← s.buf.read a.toNat
    return bitsN f.width (signExtend x)
  | .ubyte _ a => do
    let x ← s.buf.read a.toNat
    return bitsN f.width x.toNat
  | .pk12l _ a b => do
    let m ← s.buf.read a.toNat
    let l ← s.buf.read b.toNat
    return bitsN f.width (pack12 m (lo4 l))
  | .pk12h _ a b => do
    let m ← s.buf.read a.toNat
    let l ← s.buf.read b.toNat
    return bitsN f.width (pack12 m (hi4 l))
  | .amsk _ n mask => do
    let raw ← s.aux.get n
    return bitsN f.width (maskShift raw mask)
  | .asbyte _ n => do
    let raw ← s.aux.get n
    return bitsN f.width (signExtend raw)
  | .endOp => none

/-- What the abort of R147 leaves, raised in state `s` by a read of `off` in the space `src`; of the staging file it says
only what R147 says, that `W` is zero. -/
structure AbortedFrom (s : State) (src : ReadSrc) (off : Byte) (t : State) : Prop where
  err : t.err = .malformedInput
  errinfo : t.errinfo.toNat = s.upc.toNat * 512 + (match src with | .buffer => 0 | .aux => 256) + off.toNat
  written : t.written = 0
  busy : t.busy = false
  upc : t.upc = s.upc
  record : t.record = s.record
  valid : t.valid = s.valid
  tFine : t.tFine = s.tFine
  tfv : t.tfv = s.tfv
  buf : ∀ k, t.buf.read k = s.buf.read k
  blen : t.blen = s.blen
  aux : t.aux = s.aux
  auxv : t.auxv = s.auxv
  prog : t.prog = s.prog
  agenda : t.agenda = s.agenda
  answer : t.answer = s.answer

/-! ## The host -/

/-- The state a host transaction acts on: its turn is gone from the agenda, and so is the last answer. -/
def State.afterTurn (s : State) (rest : List Turn) : State := { s with agenda := rest, answer := none }

/-- The preconditions of the table of R113. -/
def HostTxn.allowed (s : State) : HostTxn → Prop
  | .reset => True
  | .fill bytes => s.busy = false ∧ bytes.length ≤ 256
  | .setAux _ _ _ => s.busy = false
  | .transportFail _ => s.busy = false
  | .start => s.busy = false
  | .readStatus => True
  | .readErrInfo => True
  | .readField f => s.valid = true ∧ f ≤ 25
  | .setTFine _ => s.valid = true
  | .readTFine => s.valid = true ∧ s.tfv = true

/-- The transactions that only return something (R119, R120, R132). -/
def HostTxn.isRead : HostTxn → Bool
  | .readStatus | .readErrInfo | .readField _ | .readTFine => true
  | .reset | .fill _ | .setAux _ _ _ | .transportFail _ | .start | .setTFine _ => false

/-! ## The encoding, in numbers -/

/-- The op numbers of `OPOF(0)` to `OPOF(25)` (R10, R63). -/
def opofNumbers : List Nat :=
  [1, 2, 3, 1, 2, 3, 2, 2, 3, 3, 2, 2, 4, 5, 6, 3, 3, 3, 4, 3, 3, 2, 3, 7, 8, 7]

/-- The six conditions of R67 on the number a word is. -/
def validWord (w : Nat) : Prop :=
  let op := w / 2 ^ 28
  let rd := w / 2 ^ 23 % 32
  let z := w / 2 ^ 16 % 128
  let a := w / 2 ^ 8 % 256
  let b := w % 256
  z = 0 ∧ ((1 ≤ op ∧ op ≤ 8) ∨ op = 15) ∧
    (op = 15 → rd = 0 ∧ a = 0 ∧ b = 0) ∧
    (op ≤ 8 → rd ≤ 25 ∧ opofNumbers[rd]? = some op) ∧
    (op = 3 ∨ op = 4 ∨ op = 8 → b = 0) ∧
    (op = 7 ∨ op = 8 → a ≤ 2)

/-- The four numbers `op`, `rd`, `a`, `b` of a micro-operation (R61 to R63). -/
def instrNumbers : Instr → Nat × Nat × Nat × Nat
  | .uword rd a b => (1, rd.index, a.toNat, b.toNat)
  | .sword rd a b => (2, rd.index, a.toNat, b.toNat)
  | .sbyte rd a => (3, rd.index, a.toNat, 0)
  | .ubyte rd a => (4, rd.index, a.toNat, 0)
  | .pk12l rd a b => (5, rd.index, a.toNat, b.toNat)
  | .pk12h rd a b => (6, rd.index, a.toNat, b.toNat)
  | .amsk rd n mask => (7, rd.index, n.index, mask.toNat)
  | .asbyte rd n => (8, rd.index, n.index, 0)
  | .endOp => (15, 0, 0, 0)

/-! ## The assembler's texts (R72) -/

/-- The texts of a number, decimal and `0x` hexadecimal. -/
def numberTexts (x : Byte) : List (List Char) :=
  [Nat.toDigits 10 x.toNat, '0' :: 'x' :: Nat.toDigits 16 x.toNat,
    '0' :: 'x' :: (Nat.toDigits 16 x.toNat).map Char.toUpper]

/-- The text of an auxiliary index. -/
def auxText : AuxReg → List Char
  | .aux0 => ['a', 'u', 'x', '0']
  | .aux1 => ['a', 'u', 'x', '1']
  | .aux2 => ['a', 'u', 'x', '2']

/-- A source line: the mnemonic, `m + 1` spaces, the operands with a comma and `n` spaces between them. -/
def asmText (m n : Nat) (mnemonic : String) (operands : List (List Char)) : List Char :=
  mnemonic.toList ++ List.replicate (m + 1) ' ' ++ (',' :: List.replicate n ' ').intercalate operands

/-- What a line that writes `i` stands for: a line whose field is not bound to its mnemonic is rejected. -/
def asmForm (i : Instr) : AsmLine := if i.wf = true then .instr i else .rejected

/-! ## A cycle -/

/-- `n` steps from `s`, stopping at the first step that gives no next state. -/
def State.runs (s : State) (n : Nat) : Host.Outcome State Fault Refusal := Host.Core.run Sys2Proof.core n s

/-- The state a `HostStart` is issued in, with nothing else to come from the host. -/
def State.starting (s : State) : State := { s with agenda := [.host .start] }

/-- The first failing read of a list of micro-operations, with the index of the micro-operation counted from `k`: "the
lowest word index and within a word `a` before `b`" (R125). -/
def State.firstFailure (s : State) (k : Nat) : List Instr → Option (Nat × ReadSrc × Byte)
  | [] => none
  | i :: is =>
    match i.reads.find? s.readFails with
    | some r => some (k, r.1, r.2)
    | none => State.firstFailure s (k + 1) is

/-- The load of the cycle cannot fail: the precondition of R124. -/
def State.ready (s : State) : Prop := s.prog.maxOffset + 1 ≤ s.blen.toNat ∧ s.auxv = true

/-- The table of R124 for the canonical program: the value of each field in terms of the bytes of `BUF` and `AUX`. -/
def calValue (o : OffsetMap) (rangeMask errorMask : Byte) (buf : Byte → Byte) (aux : AuxReg → Byte) (f : Field) : Int :=
  match f with
  | .par_t1 | .par_p1 => assembleWord (buf (o.msb f)) (buf (o.lsb f)) false
  | .par_t2 | .par_p2 | .par_p4 | .par_p5 | .par_p8 | .par_p9 | .par_gh2 =>
    assembleWord (buf (o.msb f)) (buf (o.lsb f)) true
  | .par_t3 | .par_p3 | .par_p6 | .par_p7 | .par_h3 | .par_h4 | .par_h5 | .par_h7 | .par_gh1 | .par_gh3 =>
    signExtend (buf (o.off f))
  | .par_p10 | .par_h6 => (buf (o.off f)).toNat
  | .par_h1 => (((buf (o.msb f)).toNat <<< 4) ||| ((buf (o.lsb f)).toNat &&& 0x0F) : Nat)
  | .par_h2 => (((buf (o.msb f)).toNat <<< 4) ||| ((buf (o.lsb f)).toNat >>> 4) : Nat)
  | .res_heat_range => (((aux .aux0).toNat &&& rangeMask.toNat) >>> 4 : Nat)
  | .res_heat_val => signExtend (aux .aux1)
  | .range_sw_err => (((aux .aux2).toNat &&& errorMask.toNat) >>> 4 : Nat)

end Sys2Proof.Machine
end

