-- ==== Sys2Proof/Certificates/Slice0/Obligations.lean ====
section
/-! DEFINITION. The statements for the provers. `R<n>` is a rule of spec/; `s.Inv` is the invariant of Safety.lean, which
`StepKeepsInvariant` states of every step and `ResetSatisfiesInvariant` of reset. -/

open Sys2Proof Sys2Proof.Machine

/-! ## Encoding -/

/-- Words of the spec's decoder table, one for each operation, and some it calls invalid (95 part 2.4). -/
def Obligations.SpecWordsDecode : Prop :=
  decode 0x10002221 = some (.uword .par_t1 34 33) ∧
  decode 0x2A802423 = some (.sword .par_gh2 36 35) ∧
  decode 0x3B002600 = some (.sbyte .par_gh3 38) ∧
  decode 0x49001F00 = some (.ubyte .par_h6 31) ∧
  decode 0x56801B1A = some (.pk12l .par_h1 27 26) ∧
  decode 0x6700191A = some (.pk12h .par_h2 25 26) ∧
  decode 0x7C8002F0 = some (.amsk .range_sw_err .aux2 0xF0) ∧
  decode 0x8C000100 = some (.asbyte .res_heat_val .aux1) ∧
  decode 0xF0000000 = some .endOp ∧
  decode 0x00000000 = none ∧ decode 0x90000000 = none ∧ decode 0xF0000001 = none ∧ decode 0x1D000000 = none ∧
  decode 0x10800201 = none ∧ decode 0x31000301 = none ∧ decode 0x7B800330 = none

/-- R67: exactly the words that meet the six conditions are valid, and the decoder is a bijection from them onto the
well-formed micro-operations, with `encode` as its inverse. -/
def Obligations.DecodeIsBijectionOnValidWords : Prop :=
  (∀ w : Word, (∃ i, decode w = some i) ↔ validWord w.toNat) ∧
  (∀ (w : Word) (i : Instr), decode w = some i ↔ (i.wf = true ∧ encode i = w))

/-- R61: the value of a word is `op*2^28 + rd*2^23 + a*2^8 + b`. -/
def Obligations.EncodedWordValue : Prop :=
  ∀ i : Instr,
    (encode i).toNat =
      (instrNumbers i).1 * 2 ^ 28 + (instrNumbers i).2.1 * 2 ^ 23 + (instrNumbers i).2.2.1 * 2 ^ 8 +
        (instrNumbers i).2.2.2

/-- R74: a word is an operation exactly when it is a candidate by match and mask, its `rd` is in the allowed set and its
auxiliary index is not 3; no word is a candidate for two operations. -/
def Obligations.TableRowsDecideTheMnemonic : Prop :=
  (∀ (w : Word) (op : Op), (∃ i, decode w = some i ∧ i.op = op) ↔
    (op.candidate w = true ∧ (op ≠ .endOp → ∃ f, Field.ofIndex (rdBits w).toNat = some f ∧ f.opOf = op) ∧
      (op = .amsk ∨ op = .asbyte → aBits w ≠ 3))) ∧
  (∀ (w : Word) (op op' : Op), op.candidate w = true → op'.candidate w = true → op = op')

/-- R72 and R73: an assembled line is a well-formed micro-operation that decodes back; a comment is ignored; a line of
each mnemonic, with numbers in decimal or `0x` hexadecimal, stands for its micro-operation, and is rejected if the field is
not bound to the mnemonic; `LOADCAL` stands for the canonical program; a source is assembled line by line. That spaces may
stand where these lines have them is the model's choice (log entry 16). -/
def Obligations.AssembledLineIsWellFormed : Prop :=
  (∀ (line : List Char) (i : Instr), assembleLine line = .instr i → i.wf = true ∧ decode (encode i) = some i) ∧
  (∀ line comment : List Char, assembleLine (line ++ ';' :: comment) = assembleLine line) ∧
  (∀ (m n : Nat) (f : Field) (x : AuxReg) (a b : Byte), ∀ ta ∈ numberTexts a, ∀ tb ∈ numberTexts b,
    let line := fun mnemonic operands => assembleLine (asmText m n mnemonic operands)
    line "UWORD" [f.name.toList, ta, tb] = asmForm (.uword f a b) ∧
    line "SWORD" [f.name.toList, ta, tb] = asmForm (.sword f a b) ∧
    line "SBYTE" [f.name.toList, ta] = asmForm (.sbyte f a) ∧
    line "UBYTE" [f.name.toList, ta] = asmForm (.ubyte f a) ∧
    line "PK12L" [f.name.toList, ta, tb] = asmForm (.pk12l f a b) ∧
    line "PK12H" [f.name.toList, ta, tb] = asmForm (.pk12h f a b) ∧
    line "AMSK" [f.name.toList, auxText x, tb] = asmForm (.amsk f x b) ∧
    line "ASBYTE" [f.name.toList, auxText x] = asmForm (.asbyte f x)) ∧
  assembleLine "END".toList = .instr .endOp ∧
  (∀ (o : OffsetMap) (rangeMask errorMask : Byte),
    assemble o rangeMask errorMask ["LOADCAL".toList] = some (calprog o rangeMask errorMask).words ∧
    ∀ (line : List Char) (i : Instr) (lines : List (List Char)), assembleLine line = .instr i →
      assemble o rangeMask errorMask (line :: lines) =
        (assemble o rangeMask errorMask lines).map fun words => encode i :: words)

/-! ## Programs -/

/-- R70: the build of an instance accepts exactly the well-formed programs. -/
def Obligations.BuildAcceptsExactlyWellFormedPrograms : Prop :=
  ∀ ws : List Word, (∃ p, Program.build ws = some p ∧ p.words = ws) ↔
    (ws.length = 27 ∧ (∀ w ∈ ws, ∃ i, decode w = some i) ∧
      (∀ k : Nat, (ws[k]?).bind decode = some .endOp ↔ k = 26) ∧
      (∀ (j k : Nat) (f : Field), j < 26 → k < 26 → ((ws[j]?).bind decode).bind Instr.dest = some f →
        ((ws[k]?).bind decode).bind Instr.dest = some f → j = k))

/-- R66 and R70: every field is the destination of exactly one word of a program, by the operation bound to it. -/
def Obligations.EveryFieldHasExactlyOneWord : Prop :=
  ∀ (p : Program) (f : Field),
    (∃ (k : Nat) (i : Instr), k < 26 ∧ (p.words[k]?).bind decode = some i ∧ i.dest = some f ∧ i.op = f.opOf) ∧
    (∀ j k : Nat, ((p.words[j]?).bind decode).bind Instr.dest = some f →
      ((p.words[k]?).bind decode).bind Instr.dest = some f → j = k)

/-- R123: the lines of the canonical program, which is a well-formed program for every offset map and every pair of
masks (a `Program` carries that proof). -/
def Obligations.CanonicalProgramLines : Prop :=
  ∀ (o : OffsetMap) (rangeMask errorMask : Byte),
    let line := fun k => ((calprog o rangeMask errorMask).words[k]?).bind decode
    (calprog o rangeMask errorMask).words.length = 27 ∧
    (∀ f ∈ [Field.par_t1, .par_p1], line f.index = some (.uword f (o.msb f) (o.lsb f))) ∧
    (∀ f ∈ [Field.par_t2, .par_p2, .par_p4, .par_p5, .par_p8, .par_p9, .par_gh2],
      line f.index = some (.sword f (o.msb f) (o.lsb f))) ∧
    (∀ f ∈ [Field.par_t3, .par_p3, .par_p6, .par_p7, .par_h3, .par_h4, .par_h5, .par_h7, .par_gh1, .par_gh3],
      line f.index = some (.sbyte f (o.off f))) ∧
    (∀ f ∈ [Field.par_p10, .par_h6], line f.index = some (.ubyte f (o.off f))) ∧
    line 13 = some (.pk12l .par_h1 (o.msb .par_h1) (o.lsb .par_h1)) ∧
    line 14 = some (.pk12h .par_h2 (o.msb .par_h2) (o.lsb .par_h2)) ∧
    line 23 = some (.amsk .res_heat_range .aux0 rangeMask) ∧
    line 24 = some (.asbyte .res_heat_val .aux1) ∧
    line 25 = some (.amsk .range_sw_err .aux2 errorMask) ∧
    line 26 = some .endOp

/-- `CAL_LEN` lies above the largest offset the program names and within the capacity of the buffer, as R5 asks; that the
OPEN parameter is represented so is the model's choice (log entry 10). -/
def Obligations.CalLenInRange : Prop :=
  ∀ p : Program, p.maxOffset < p.calLen ∧ p.calLen ≤ 256

/-! ## The codec -/

/-- R80: `sign_extend`, its range, its inverse, and the corner cases at 8 and 16 bits. -/
def Obligations.SignExtendContract : Prop :=
  (∀ (n : Nat) (v : BitVec n), 1 ≤ n →
    (v.getLsbD (n - 1) = true → signExtend v = (v.toNat : Int) - 2 ^ n) ∧
    (v.getLsbD (n - 1) = false → signExtend v = v.toNat) ∧
    -(2 : Int) ^ (n - 1) ≤ signExtend v ∧ signExtend v ≤ 2 ^ (n - 1) - 1 ∧
    signExtend v = v.toInt ∧ bitsN n (signExtend v) = v) ∧
  (∀ (n : Nat) (z : Int), 1 ≤ n → -(2 : Int) ^ (n - 1) ≤ z → z ≤ 2 ^ (n - 1) - 1 →
    ∃ v : BitVec n, signExtend v = z ∧ (v.toNat : Int) = z % 2 ^ n) ∧
  signExtend (0x00#8) = 0 ∧ signExtend (0x7F#8) = 127 ∧ signExtend (0x80#8) = -128 ∧ signExtend (0xFF#8) = -1 ∧
  signExtend (0x0000#16) = 0 ∧ signExtend (0x7FFF#16) = 32767 ∧ signExtend (0x8000#16) = -32768 ∧
  signExtend (0xFFFF#16) = -1

/-- R82 and R84: `assemble_word` at 16 bits, its ranges, its sign, its bits, and the round trips. -/
def Obligations.AssembleWordContract : Prop :=
  (∀ m l : Byte,
    assembleWord m l false = 256 * (m.toNat : Int) + l.toNat ∧
    assembleWord m l false = ((m.toNat <<< 8 ||| l.toNat : Nat) : Int) ∧
    assembleWord m l false ≤ 65535 ∧
    assembleWord m l true = signExtend (m ++ l : BitVec 16) ∧
    -32768 ≤ assembleWord m l true ∧ assembleWord m l true ≤ 32767 ∧
    (assembleWord m l true < 0 ↔ 0x80 ≤ m.toNat) ∧
    bitsN 16 (assembleWord m l false) = m ++ l ∧ bitsN 16 (assembleWord m l true) = m ++ l ∧
    assembleWord m l false / 256 = m.toNat ∧ assembleWord m l false % 256 = l.toNat) ∧
  (∀ w : BitVec 16, assembleWord (w.extractLsb' 8 8) (w.extractLsb' 0 8) false = w.toNat) ∧
  (∀ z : Int, -32768 ≤ z → z ≤ 32767 → ∃ m l : Byte, assembleWord m l true = z ∧
    ∀ m' l' : Byte, assembleWord m' l' true = z → m' = m ∧ l' = l)

/-- R85 to R87: the nibbles of a byte, packing, and mask-then-shift. -/
def Obligations.NibbleAndMaskLaws : Prop :=
  (∀ x : Byte, lo4 x = x.toNat % 16 ∧ hi4 x = x.toNat / 16 ∧ lo4 x ≤ 15 ∧ hi4 x ≤ 15 ∧
    x.toNat = 16 * hi4 x + lo4 x) ∧
  (∀ (m : Byte) (nib : Nat), nib ≤ 15 → pack12 m nib = 16 * m.toNat + nib ∧ pack12 m nib ≤ 4095 ∧
    BitVec.ofNat 12 (pack12 m nib) = (m ++ BitVec.ofNat 4 nib : BitVec 12)) ∧
  (∀ raw mask : Byte, maskShift raw mask = (raw.toNat &&& mask.toNat) / 16 ∧ maskShift raw mask ≤ 15 ∧
    maskShift raw mask = hi4 raw &&& hi4 mask ∧
    BitVec.ofNat 4 (maskShift raw mask) = raw.extractLsb' 4 4 &&& mask.extractLsb' 4 4)

/-! ## The record file -/

/-- R12: `R[f]` and `R[g]` for `f != g` are disjoint storage, and a write is read back; the same of `S`. -/
def Obligations.RecordRegistersAreDisjoint : Prop :=
  ∀ (g : RegFile) (f h : Field) (v : BitVec f.width),
    (g.set f v).get f = some v ∧ (h ≠ f → (g.set f v).get h = g.get h)

/-! ## The micro-operations: encoding, effect with frame, and raises -/

/-- R90: `UWORD`. Everything but `S[rd]`, `W[rd]` and `UPC` is unchanged, the buffer and the flags among it. -/
def Obligations.UwordStagesUnsignedWord : Prop :=
  ∀ (s : State) (rd : Field) (a b : Byte), rd ∈ [Field.par_t1, .par_p1] →
    (encode (.uword rd a b)).toNat = 0x10000000 + rd.index * 2 ^ 23 + a.toNat * 2 ^ 8 + b.toNat ∧
    (∀ m l, a.toNat < s.blen.toNat → b.toNat < s.blen.toNat →
      s.buf.read a.toNat = some m → s.buf.read b.toNat = some l →
      ∃ v : BitVec rd.width, rd.width = 16 ∧ v.setWidth 16 = (m ++ l : BitVec 16) ∧
        rd.val v = 256 * m.toNat + l.toNat ∧
        exec (.uword rd a b) s = .next { s with
          staging := s.staging.set rd v, written := s.written ||| (1#26 <<< rd.index), upc := s.upc + 1 }) ∧
    (s.blen.toNat ≤ a.toNat → ∃ t, exec (.uword rd a b) s = .next t ∧ AbortedFrom s .buffer a t) ∧
    (∀ m, a.toNat < s.blen.toNat → s.buf.read a.toNat = some m → s.blen.toNat ≤ b.toNat →
      ∃ t, exec (.uword rd a b) s = .next t ∧ AbortedFrom s .buffer b t)

/-- R91: `SWORD`, with the frame and the raises of `UWORD`. -/
def Obligations.SwordStagesSignedWord : Prop :=
  ∀ (s : State) (rd : Field) (a b : Byte),
    rd ∈ [Field.par_t2, .par_p2, .par_p4, .par_p5, .par_p8, .par_p9, .par_gh2] →
    (encode (.sword rd a b)).toNat = 0x20000000 + rd.index * 2 ^ 23 + a.toNat * 2 ^ 8 + b.toNat ∧
    (∀ m l, a.toNat < s.blen.toNat → b.toNat < s.blen.toNat →
      s.buf.read a.toNat = some m → s.buf.read b.toNat = some l →
      ∃ v : BitVec rd.width, rd.width = 16 ∧ v.setWidth 16 = (m ++ l : BitVec 16) ∧
        rd.val v = 256 * m.toNat + l.toNat - (if 0x80 ≤ m.toNat then 65536 else 0) ∧
        exec (.sword rd a b) s = .next { s with
          staging := s.staging.set rd v, written := s.written ||| (1#26 <<< rd.index), upc := s.upc + 1 }) ∧
    (s.blen.toNat ≤ a.toNat → ∃ t, exec (.sword rd a b) s = .next t ∧ AbortedFrom s .buffer a t) ∧
    (∀ m, a.toNat < s.blen.toNat → s.buf.read a.toNat = some m → s.blen.toNat ≤ b.toNat →
      ∃ t, exec (.sword rd a b) s = .next t ∧ AbortedFrom s .buffer b t)

/-- R92: `SBYTE`, with its frame and its raise. -/
def Obligations.SbyteStagesSignedByte : Prop :=
  ∀ (s : State) (rd : Field) (a : Byte),
    rd ∈ [Field.par_t3, .par_p3, .par_p6, .par_p7, .par_h3, .par_h4, .par_h5, .par_h7, .par_gh1, .par_gh3] →
    (encode (.sbyte rd a)).toNat = 0x30000000 + rd.index * 2 ^ 23 + a.toNat * 2 ^ 8 ∧
    (∀ x, a.toNat < s.blen.toNat → s.buf.read a.toNat = some x →
      ∃ v : BitVec rd.width, rd.width = 8 ∧ v.setWidth 8 = x ∧
        rd.val v = (x.toNat : Int) - (if 0x80 ≤ x.toNat then 256 else 0) ∧
        exec (.sbyte rd a) s = .next { s with
          staging := s.staging.set rd v, written := s.written ||| (1#26 <<< rd.index), upc := s.upc + 1 }) ∧
    (s.blen.toNat ≤ a.toNat → ∃ t, exec (.sbyte rd a) s = .next t ∧ AbortedFrom s .buffer a t)

/-- R93: `UBYTE`, with its frame and its raise. -/
def Obligations.UbyteStagesUnsignedByte : Prop :=
  ∀ (s : State) (rd : Field) (a : Byte), rd ∈ [Field.par_p10, .par_h6] →
    (encode (.ubyte rd a)).toNat = 0x40000000 + rd.index * 2 ^ 23 + a.toNat * 2 ^ 8 ∧
    (∀ x, a.toNat < s.blen.toNat → s.buf.read a.toNat = some x →
      ∃ v : BitVec rd.width, rd.width = 8 ∧ v.setWidth 8 = x ∧ rd.val v = x.toNat ∧
        exec (.ubyte rd a) s = .next { s with
          staging := s.staging.set rd v, written := s.written ||| (1#26 <<< rd.index), upc := s.upc + 1 }) ∧
    (s.blen.toNat ≤ a.toNat → ∃ t, exec (.ubyte rd a) s = .next t ∧ AbortedFrom s .buffer a t)

/-- R100: `PK12L`, with the frame and the raises of the two-byte operations. -/
def Obligations.Pk12lStagesLowNibblePack : Prop :=
  ∀ (s : State) (a b : Byte),
    (encode (.pk12l .par_h1 a b)).toNat = 0x56800000 + a.toNat * 2 ^ 8 + b.toNat ∧
    (∀ m l, a.toNat < s.blen.toNat → b.toNat < s.blen.toNat →
      s.buf.read a.toNat = some m → s.buf.read b.toNat = some l →
      ∃ v : BitVec Field.par_h1.width, v.setWidth 16 = (0#4 ++ m ++ l.extractLsb' 0 4 : BitVec 16) ∧
        Field.par_h1.val v = 16 * m.toNat + l.toNat % 16 ∧
        exec (.pk12l .par_h1 a b) s = .next { s with
          staging := s.staging.set .par_h1 v, written := s.written ||| (1#26 <<< 13), upc := s.upc + 1 }) ∧
    (s.blen.toNat ≤ a.toNat → ∃ t, exec (.pk12l .par_h1 a b) s = .next t ∧ AbortedFrom s .buffer a t) ∧
    (∀ m, a.toNat < s.blen.toNat → s.buf.read a.toNat = some m → s.blen.toNat ≤ b.toNat →
      ∃ t, exec (.pk12l .par_h1 a b) s = .next t ∧ AbortedFrom s .buffer b t)

/-- R101: `PK12H`, with the frame and the raises of the two-byte operations. -/
def Obligations.Pk12hStagesHighNibblePack : Prop :=
  ∀ (s : State) (a b : Byte),
    (encode (.pk12h .par_h2 a b)).toNat = 0x67000000 + a.toNat * 2 ^ 8 + b.toNat ∧
    (∀ m l, a.toNat < s.blen.toNat → b.toNat < s.blen.toNat →
      s.buf.read a.toNat = some m → s.buf.read b.toNat = some l →
      ∃ v : BitVec Field.par_h2.width, v.setWidth 16 = (0#4 ++ m ++ l.extractLsb' 4 4 : BitVec 16) ∧
        Field.par_h2.val v = 16 * m.toNat + l.toNat / 16 ∧
        exec (.pk12h .par_h2 a b) s = .next { s with
          staging := s.staging.set .par_h2 v, written := s.written ||| (1#26 <<< 14), upc := s.upc + 1 }) ∧
    (s.blen.toNat ≤ a.toNat → ∃ t, exec (.pk12h .par_h2 a b) s = .next t ∧ AbortedFrom s .buffer a t) ∧
    (∀ m, a.toNat < s.blen.toNat → s.buf.read a.toNat = some m → s.blen.toNat ≤ b.toNat →
      ∃ t, exec (.pk12h .par_h2 a b) s = .next t ∧ AbortedFrom s .buffer b t)

/-- R105: `AMSK`, with its frame and its raise; the result is never negative. -/
def Obligations.AmskStagesMaskedNibble : Prop :=
  ∀ (s : State) (rd : Field) (n : AuxReg) (mask : Byte), rd ∈ [Field.res_heat_range, .range_sw_err] →
    (encode (.amsk rd n mask)).toNat = 0x70000000 + rd.index * 2 ^ 23 + n.index * 2 ^ 8 + mask.toNat ∧
    (∀ raw, s.auxv = true → s.aux.get n = some raw →
      ∃ v : BitVec rd.width, rd.width = 8 ∧
        v.setWidth 8 = (0#4 ++ (raw.extractLsb' 4 4 &&& mask.extractLsb' 4 4) : BitVec 8) ∧
        rd.val v = (((raw.toNat &&& mask.toNat) / 16 : Nat) : Int) ∧
        exec (.amsk rd n mask) s = .next { s with
          staging := s.staging.set rd v, written := s.written ||| (1#26 <<< rd.index), upc := s.upc + 1 }) ∧
    (s.auxv = false → ∃ t, exec (.amsk rd n mask) s = .next t ∧ AbortedFrom s .aux n.byte t)

/-- R106: `ASBYTE`, with its frame and its raise. -/
def Obligations.AsbyteStagesSignedByte : Prop :=
  ∀ (s : State) (n : AuxReg),
    (encode (.asbyte .res_heat_val n)).toNat = 0x8C000000 + n.index * 2 ^ 8 ∧
    (∀ raw, s.auxv = true → s.aux.get n = some raw →
      ∃ v : BitVec Field.res_heat_val.width, v.setWidth 8 = raw ∧
        Field.res_heat_val.val v = (raw.toNat : Int) - (if 0x80 ≤ raw.toNat then 256 else 0) ∧
        exec (.asbyte .res_heat_val n) s = .next { s with
          staging := s.staging.set .res_heat_val v, written := s.written ||| (1#26 <<< 24), upc := s.upc + 1 }) ∧
    (s.auxv = false → ∃ t, exec (.asbyte .res_heat_val n) s = .next t ∧ AbortedFrom s .aux n.byte t)

/-- R110: `END` commits the staged record, sets `VALID`, clears `TFV`, `W` and `BUSY`, and leaves the rest; what the
staging file holds afterwards is not said. In states of the invariant in RUN it stands exactly at index 26, and then every
field is staged: there R110 enables it. That `exec` gives `END` the same effect in every other state, a state with a field
that is not staged among them, is the model's choice (log entries 13 and 14), not the rule's. -/
def Obligations.EndCommitsTheStagedRecord : Prop :=
  (encode .endOp).toNat = 0xF0000000 ∧
  (∀ s : State, ∃ g : RegFile, exec .endOp s = .next { s with
    record := s.staging, valid := true, tfv := false, written := 0, busy := false, staging := g }) ∧
  (∀ s : State, s.Inv → s.busy = true →
    (fetchInstr s = some .endOp ↔ s.upc.toNat = 26) ∧
    (fetchInstr s = some .endOp → ∀ f, s.isWritten f = true ∧ (s.staging.get f).isSome = true))

/-- R66: a destination that is not bound to the operation is no micro-operation, and the model refuses it (log entry
11). -/
def Obligations.UnboundDestinationIsRefused : Prop :=
  ∀ (i : Instr) (s : State), i.wf = false → exec i s = .refused .illFormedInstr

/-- The frame of the eight extraction operations, whether they stage or abort (41 introduction, R12, R19): the record,
`VALID`, `T_FINE`, `TFV`, every byte of the buffer, the auxiliary registers and the program are unchanged; either only
the destination's staging register and bit change and `ERR`, `ERRINFO`, `BUSY` do not, or it is an abort. -/
def Obligations.ExtractionFrame : Prop :=
  ∀ (i : Instr) (rd : Field) (s t : State), i.dest = some rd → exec i s = .next t →
    t.record = s.record ∧ t.valid = s.valid ∧ t.tFine = s.tFine ∧ t.tfv = s.tfv ∧
    (∀ k, t.buf.read k = s.buf.read k) ∧ t.blen = s.blen ∧ t.aux = s.aux ∧ t.auxv = s.auxv ∧ t.prog = s.prog ∧
    ((t.err = s.err ∧ t.errinfo = s.errinfo ∧ t.busy = s.busy ∧ t.upc = s.upc + 1 ∧ t.isWritten rd = true ∧
        ∀ f, f ≠ rd → t.staging.get f = s.staging.get f ∧ t.isWritten f = s.isWritten f) ∨
      ∃ src off, AbortedFrom s src off t)

/-- R147, with the order of R146: the first read of a micro-operation that fails takes the exception, in the same step;
nothing is staged, and nothing but `ERR`, `ERRINFO`, `W` and `BUSY` changes (`AbortedFrom`). -/
def Obligations.FirstFailingReadAborts : Prop :=
  ∀ (i : Instr) (rd : Field) (s : State) (r : ReadSrc × Byte), s.Held → i.dest = some rd → rd.opOf = i.op →
    i.reads.find? s.readFails = some r → ∃ t, exec i s = .next t ∧ AbortedFrom s r.1 r.2 t

/-! ## The sequencer -/

/-- A step with no host transaction next, in RUN, is the meaning of the micro-operation the word at `UPC` decodes to, on
the state with the turn taken and the last answer gone. -/
def Obligations.StepRunsTheDecodedWord : Prop :=
  ∀ (s : State) (w : Word) (i : Instr), s.busy = true → (∀ t rest, s.agenda ≠ .host t :: rest) →
    s.prog.words[s.upc.toNat]? = some w → decode w = some i →
    step s = exec i (s.afterTurn s.agenda.tail)

/-- R111: the sequencer has a step exactly when `BUSY = 1`; the word at `UPC` is always valid, and its rule is what the
step does. That a turn of the idle sequencer is the refusal `idle` is the model's way to say so (log entry 6). -/
def Obligations.SequencerIsEnabledExactlyWhenBusy : Prop :=
  ∀ s : State, (∀ t rest, s.agenda ≠ .host t :: rest) →
    (s.busy = false → step s = .refused .idle) ∧
    (s.busy = true → s.upc.toNat ≤ 26 → ∃ w i, s.prog.words[s.upc.toNat]? = some w ∧ decode w = some i ∧
      i.wf = true ∧ step s = exec i (s.afterTurn s.agenda.tail))

/-! ## Host transactions -/

/-- R31 and R160: `Reset`, accepted in every state, gives every piece of state its reset value and leaves the program;
`STATUS` reads 0x00. -/
def Obligations.ResetGivesTheResetValues : Prop :=
  ∀ (s : State) (rest : List Turn), s.agenda = .host .reset :: rest → ∃ t, step s = .next t ∧
    (∀ f, t.record.get f = none) ∧ t.valid = false ∧ (∀ f, t.staging.get f = none) ∧ t.written = 0 ∧
    t.tFine = none ∧ t.tfv = false ∧ (∀ k, t.buf.read k = none) ∧ t.blen = 0 ∧ (∀ x, t.aux.get x = none) ∧
    t.auxv = false ∧ t.upc = 0 ∧ t.busy = false ∧ t.err = .noError ∧ t.errinfo = 0 ∧ statusWord t = 0 ∧
    t.prog = s.prog ∧ t.agenda = rest

/-- R161: after reset nothing holds a value and no read returns data: `HostRead` of every index and `HostReadTFine` are
refused, `STATUS` reads 0x00 and `ERRINFO` reads 0x0000. -/
def Obligations.NothingReadableAfterReset : Prop :=
  ∀ (p : Program) (rest : List Turn),
    (∀ f, (State.built p).record.get f = none ∧ (State.built p).staging.get f = none) ∧
    (State.built p).tFine = none ∧ (∀ k, (State.built p).buf.read k = none) ∧
    (∀ x, (State.built p).aux.get x = none) ∧
    (∀ f, ∃ r, step { State.built p with agenda := .host (.readField f) :: rest } = .refused r) ∧
    (∃ r, step { State.built p with agenda := .host .readTFine :: rest } = .refused r) ∧
    (∃ t, step { State.built p with agenda := .host .readStatus :: rest } = .next t ∧ t.answer = some (.status 0x00)) ∧
    (∃ t, step { State.built p with agenda := .host .readErrInfo :: rest } = .next t ∧
      t.answer = some (.errInfo 0x0000))

/-- R114: `HostFill`. -/
def Obligations.HostFillDeliversTheBytes : Prop :=
  ∀ (s : State) (bytes : List Byte) (rest : List Turn), s.agenda = .host (.fill bytes) :: rest →
    (s.busy = false → bytes.length ≤ 256 → ∃ (m : Memory) (n : BitVec 9),
      step s = .next { s.afterTurn rest with buf := m, blen := n } ∧ n.toNat = bytes.length ∧ m.wf = true ∧
      ∀ k, m.read k = bytes[k]?) ∧
    (s.busy = true ∨ 256 < bytes.length → ∃ r, step s = .refused r)

/-- R115: `HostSetAux`. -/
def Obligations.HostSetAuxSuppliesThreeBytes : Prop :=
  ∀ (s : State) (b0 b1 b2 : Byte) (rest : List Turn), s.agenda = .host (.setAux b0 b1 b2) :: rest →
    (s.busy = false → ∃ x : AuxFile, step s = .next { s.afterTurn rest with aux := x, auxv := true } ∧
      x.get .aux0 = some b0 ∧ x.get .aux1 = some b1 ∧ x.get .aux2 = some b2) ∧
    (s.busy = true → ∃ r, step s = .refused r)

/-- R116: `HostTransportFail`, the delivery of the exception `TransportFailure`. -/
def Obligations.TransportFailureInvalidatesItsInput : Prop :=
  ∀ (s : State) (sel : InputSel) (rest : List Turn), s.agenda = .host (.transportFail sel) :: rest →
    (s.busy = false → sel = .bufSel → ∃ m : Memory, (∀ k, m.read k = none) ∧
      step s = .next { s.afterTurn rest with err := .transportFailure, errinfo := 0, buf := m, blen := 0 }) ∧
    (s.busy = false → sel = .auxSel → ∃ x : AuxFile, (∀ n, x.get n = none) ∧
      step s = .next { s.afterTurn rest with err := .transportFailure, errinfo := 0, aux := x, auxv := false }) ∧
    (s.busy = true → ∃ r, step s = .refused r)

/-- R118: `HostStart`; what the staging file holds afterwards is not said. -/
def Obligations.HostStartBeginsACycle : Prop :=
  ∀ (s : State) (rest : List Turn), s.agenda = .host .start :: rest →
    (s.busy = false → ∃ g : RegFile, step s = .next { s.afterTurn rest with
      busy := true, upc := 0, written := 0, err := .noError, errinfo := 0, staging := g }) ∧
    (s.busy = true → ∃ r, step s = .refused r)

/-- R19 and R119: `HostReadStatus` returns the bits of `STATUS` and `HostReadErrInfo` returns `ERRINFO`, always, and
nothing else changes. -/
def Obligations.StatusReadsReturnTheFlags : Prop :=
  ∀ (s : State) (rest : List Turn),
    (s.agenda = .host .readStatus :: rest → ∃ v : Byte,
      step s = .next { s.afterTurn rest with answer := some (.status v) } ∧
      v.toNat = s.busy.toNat + 2 * s.valid.toNat + 4 * s.auxv.toNat + 8 * s.tfv.toNat +
        16 * (match s.err with | .noError => 0 | .malformedInput => 1 | .transportFailure => 2)) ∧
    (s.agenda = .host .readErrInfo :: rest →
      step s = .next { s.afterTurn rest with answer := some (.errInfo s.errinfo) })

/-- R120: `HostRead` returns the widened register, whose value is the field's value; refused while `VALID = 0` and for
26 and above. -/
def Obligations.HostReadReturnsTheCoefficient : Prop :=
  ∀ (s : State) (n : Nat) (rest : List Turn), s.agenda = .host (.readField n) :: rest →
    (∀ (f : Field) (v : BitVec f.width), s.valid = true → f.index = n → s.record.get f = some v → ∃ d : Half,
      step s = .next { s.afterTurn rest with answer := some (.rdata d) } ∧
      d = (match f.ty with | .i8 => v.signExtend 16 | .u8 => v.zeroExtend 16 | .i16 | .u16 => v.setWidth 16) ∧
      f.val v = (match f.ty with | .i8 | .i16 => d.toInt | .u8 | .u16 => (d.toNat : Int))) ∧
    (s.valid = false ∨ 26 ≤ n → ∃ r, step s = .refused r)

/-- R131: `HostSetTFine`, in RUN as well as in IDLE. -/
def Obligations.HostSetTFineStoresTheBits : Prop :=
  ∀ (s : State) (v : BitVec Config.tfineW) (rest : List Turn), s.agenda = .host (.setTFine v) :: rest →
    (s.valid = true → step s = .next { s.afterTurn rest with tFine := some v, tfv := true }) ∧
    (s.valid = false → ∃ r, step s = .refused r)

/-- R132: `HostReadTFine`; refused before one was set. -/
def Obligations.HostReadTFineReturnsTheBits : Prop :=
  ∀ (s : State) (rest : List Turn), s.agenda = .host .readTFine :: rest →
    (∀ v, s.valid = true → s.tfv = true → s.tFine = some v →
      step s = .next { s.afterTurn rest with answer := some (.tFine v) }) ∧
    (s.valid = false ∨ s.tfv = false → ∃ r, step s = .refused r)

/-- R113, with R20: in a reachable state a transaction is accepted exactly when its precondition holds. -/
def Obligations.TransactionAcceptedExactlyWhenAllowed : Prop :=
  ∀ (s : State) (t : HostTxn) (rest : List Turn), s.Inv → s.agenda = .host t :: rest →
    (t.allowed s → ∃ u, step s = .next u) ∧ (¬ t.allowed s → ∃ r, step s = .refused r)

/-- The read transactions change nothing but the answer (R119, R120, R132), so they cannot disturb a cycle (R126). -/
def Obligations.ReadTransactionsChangeNothing : Prop :=
  ∀ (s u : State) (t : HostTxn) (rest : List Turn), s.agenda = .host t :: rest → t.isRead = true →
    step s = .next u → ∃ a, u = { s.afterTurn rest with answer := some a }

/-- The staging file, `W`, the buffer, `BLEN`, the auxiliary bytes, `UPC` and the program are hidden from the host: two
states that agree on the rest give a transaction the same answer (R14, R18, R23). -/
def Obligations.HiddenStateGivesNoAnswer : Prop :=
  ∀ (s₁ s₂ t₁ : State) (t : HostTxn) (rest : List Turn),
    s₁.agenda = .host t :: rest → s₂.agenda = .host t :: rest →
    s₁.record = s₂.record → s₁.valid = s₂.valid → s₁.tFine = s₂.tFine → s₁.tfv = s₂.tfv → s₁.auxv = s₂.auxv →
    s₁.busy = s₂.busy → s₁.err = s₂.err → s₁.errinfo = s₂.errinfo → step s₁ = .next t₁ →
    ∃ t₂, step s₂ = .next t₂ ∧ t₂.answer = t₁.answer

/-! ## Invariants and whole-machine rules -/

/-- The invariant holds after reset, whatever program the instance was built with. -/
def Obligations.ResetSatisfiesInvariant : Prop :=
  State.reset.Inv ∧ ∀ p : Program, (State.built p).Inv

/-- Every step, of the sequencer or of the host, keeps the invariant. -/
def Obligations.StepKeepsInvariant : Prop :=
  ∀ s t : State, s.Inv → step s = .next t → t.Inv

/-- In a state of the invariant no step has the outcome `Outcome.fault`, and none is refused for an ill-formed program or
instruction (R71). This is R143's "nothing else faults" in the model's terms, and the terms are the model's choice: the two
exceptions, which R9 calls faults and which do occur in such states, are next states (log entry 1), and the one
`Outcome.fault` is the read of storage without a value (log entry 12). -/
def Obligations.ReachableStatesNeverFault : Prop :=
  ∀ s : State, s.Inv → (∀ r, step s ≠ .fault r) ∧ step s ≠ .refused .illFormedProgram ∧
    step s ≠ .refused .illFormedInstr

/-- R54: nothing stores to `PROG`. -/
def Obligations.ProgramIsReadOnly : Prop :=
  ∀ s t : State, step s = .next t → t.prog = s.prog

/-- R12, R13 and R17: the record and `VALID` change only where `END` commits the staged record and at reset. -/
def Obligations.RecordChangesOnlyByCommitOrReset : Prop :=
  ∀ s t : State, step s = .next t →
    (t.record = s.record ∧ t.valid = s.valid) ∨
    (s.busy = true ∧ fetchInstr s = some .endOp ∧ (∀ u rest, s.agenda ≠ .host u :: rest) ∧
      t.record = s.staging ∧ t.valid = true ∧ t.busy = false) ∨
    (∃ rest, s.agenda = .host .reset :: rest ∧ (∀ f, t.record.get f = none) ∧ t.valid = false)

/-- R51: while a cycle runs no transaction but `Reset`, and no micro-operation, changes `BUF`, `BLEN`, `AUX` or
`AUXV`. -/
def Obligations.InputsAreStableDuringACycle : Prop :=
  ∀ s t : State, s.busy = true → (∀ rest, s.agenda ≠ .host .reset :: rest) → step s = .next t →
    t.buf = s.buf ∧ t.blen = s.blen ∧ t.aux = s.aux ∧ t.auxv = s.auxv

/-- The "set by" and "cleared by" columns of R19 for `BUSY`, `AUXV`, `TFV` and `ERR`. -/
def Obligations.FlagsChangeOnlyAsTheTableSays : Prop :=
  ∀ s t : State, step s = .next t →
    (t.busy ≠ s.busy → (t.busy = true ∧ ∃ rest, s.agenda = .host .start :: rest) ∨
      (t.busy = false ∧ ((∃ rest, s.agenda = .host .reset :: rest) ∨
        (s.busy = true ∧ (∀ u rest, s.agenda ≠ .host u :: rest) ∧
          (fetchInstr s = some .endOp ∨ t.err = .malformedInput))))) ∧
    (t.auxv ≠ s.auxv → (t.auxv = true ∧ ∃ b0 b1 b2 rest, s.agenda = .host (.setAux b0 b1 b2) :: rest) ∨
      (t.auxv = false ∧ ∃ rest, s.agenda = .host (.transportFail .auxSel) :: rest ∨ s.agenda = .host .reset :: rest)) ∧
    (t.tfv ≠ s.tfv → (t.tfv = true ∧ ∃ v rest, s.agenda = .host (.setTFine v) :: rest) ∨
      (t.tfv = false ∧ ((∃ rest, s.agenda = .host .reset :: rest) ∨
        (s.busy = true ∧ (∀ u rest, s.agenda ≠ .host u :: rest) ∧ fetchInstr s = some .endOp)))) ∧
    (t.err ≠ s.err →
      (t.err = .noError ∧ ∃ rest, s.agenda = .host .start :: rest ∨ s.agenda = .host .reset :: rest) ∨
      (t.err = .malformedInput ∧ s.busy = true ∧ t.busy = false ∧ ∀ u rest, s.agenda ≠ .host u :: rest) ∨
      (t.err = .transportFailure ∧ ∃ sel rest, s.agenda = .host (.transportFail sel) :: rest))

/-! ## The load as a whole -/

/-- R124: with `BLEN >= M + 1` and `AUXV = 1` the cycle ends after exactly 27 sequencer steps with the record made of the
result of each field's word; until then the old record stands. The run starts with the turn of `HostStart`, which is one
step more. -/
def Obligations.LoadSucceeds : Prop :=
  ∀ s : State, s.Inv → s.busy = false → s.ready →
    (∃ t, s.starting.runs 28 = .next t ∧ t.busy = false ∧ t.valid = true ∧ t.tfv = false ∧ t.err = .noError ∧
      t.errinfo = 0 ∧ t.upc = 26 ∧ t.written = 0 ∧ t.buf = s.buf ∧ t.blen = s.blen ∧ t.aux = s.aux ∧
      t.auxv = s.auxv ∧ t.tFine = s.tFine ∧
      ∀ i f, i ∈ s.prog.instrs → i.dest = some f →
        t.record.get f = s.resultBits i f ∧ (t.record.get f).isSome = true) ∧
    (∀ k, k < 27 → ∃ u, s.starting.runs (k + 1) = .next u ∧ u.busy = true ∧ u.upc.toNat = k ∧
      u.record = s.record ∧ u.valid = s.valid)

/-- R125: with `BLEN <= M` or `AUXV = 0` the cycle aborts at the first failing read, and the record, `VALID`, `T_FINE` and
`TFV` are what they were. -/
def Obligations.LoadFailsAtTheFirstMissingByte : Prop :=
  ∀ s : State, s.Inv → s.busy = false → ¬ s.ready →
    ∃ k src off, s.firstFailure 0 s.prog.instrs = some (k, src, off) ∧ k ≤ 25 ∧
      ∃ t, s.starting.runs (k + 2) = .next t ∧ t.busy = false ∧ t.err = .malformedInput ∧
        t.errinfo.toNat = k * 512 + (match src with | .buffer => 0 | .aux => 256) + off.toNat ∧
        t.upc.toNat = k ∧ t.record = s.record ∧ t.valid = s.valid ∧ t.tFine = s.tFine ∧ t.tfv = s.tfv

/-- The table of R124: the value of each coefficient after a load by the canonical program. -/
def Obligations.CanonicalLoadValues : Prop :=
  ∀ (o : OffsetMap) (rangeMask errorMask : Byte) (s : State) (buf : Byte → Byte) (aux : AuxReg → Byte),
    s.Inv → s.busy = false → s.ready → s.prog = calprog o rangeMask errorMask →
    (∀ k : Byte, k.toNat < s.blen.toNat → s.buf.read k.toNat = some (buf k)) →
    (∀ x, s.aux.get x = some (aux x)) →
    ∃ t, s.starting.runs 28 = .next t ∧ t.valid = true ∧
      ∀ f : Field, ∃ v, t.record.get f = some v ∧ f.val v = calValue o rangeMask errorMask buf aux f

/-- R126: the outcome of a cycle, which is the committed record or the abort with its `ERRINFO`, is a function of the
program and the inputs at `HostStart`: two instances that agree on those end their cycles alike, whatever record, staged
values, `T_FINE` or `ERR` they had and however host reads interleave with the sequencer's steps. -/
def Obligations.LoadIsDeterministic : Prop :=
  ∀ (s₁ s₂ : State) (ts₁ ts₂ : List Turn), s₁.Inv → s₂.Inv → s₁.busy = false → s₂.busy = false →
    s₁.prog = s₂.prog → (∀ k, s₁.buf.read k = s₂.buf.read k) → s₁.blen = s₂.blen →
    (∀ x, s₁.aux.get x = s₂.aux.get x) → s₁.auxv = s₂.auxv →
    s₁.agenda = .host .start :: ts₁ → s₂.agenda = .host .start :: ts₂ →
    (∀ u, Turn.host u ∈ ts₁ → u.isRead = true) → (∀ u, Turn.host u ∈ ts₂ → u.isRead = true) →
    ∀ n₁ n₂ t₁ t₂, s₁.runs (n₁ + 1) = .next t₁ → t₁.busy = false → s₂.runs (n₂ + 1) = .next t₂ → t₂.busy = false →
      t₂.err = t₁.err ∧ t₂.errinfo = t₁.errinfo ∧ (t₁.err = .noError → ∀ f, t₂.record.get f = t₁.record.get f)

/-- R127: two programs with the same 26 extraction words in different orders succeed on the same start states and commit
the same record, and fail on the same start states, each at the first failing read in its own order. -/
def Obligations.LoadIsOrderIndependent : Prop :=
  ∀ (s : State) (q : Program), s.Inv → s.busy = false → (s.prog.words.take 26).Perm (q.words.take 26) →
    (s.ready → ∃ t u, s.starting.runs 28 = .next t ∧ State.runs { s.starting with prog := q } 28 = .next u ∧
      t.valid = true ∧ t.busy = false ∧ t.err = .noError ∧
      u.valid = true ∧ u.busy = false ∧ u.err = .noError ∧ u.record = t.record) ∧
    (¬ s.ready → ∃ j k a b t u,
      s.firstFailure 0 s.prog.instrs = some (j, a) ∧ s.firstFailure 0 q.instrs = some (k, b) ∧
      s.starting.runs (j + 2) = .next t ∧ State.runs { s.starting with prog := q } (k + 2) = .next u ∧
      t.busy = false ∧ t.err = .malformedInput ∧ t.record = s.record ∧ t.valid = s.valid ∧
      u.busy = false ∧ u.err = .malformedInput ∧ u.record = s.record ∧ u.valid = s.valid)

/-- R163: the boot sequence. From any state `Reset`, `HostFill` of enough bytes, `HostSetAux` and `HostStart`, followed by
27 sequencer steps, leave a block that is idle, without error and loaded. -/
def Obligations.BootSequenceLoadsTheRecord : Prop :=
  ∀ (s : State) (bytes : List Byte) (b0 b1 b2 : Byte),
    s.agenda = [.host .reset, .host (.fill bytes), .host (.setAux b0 b1 b2), .host .start] →
    s.prog.maxOffset < bytes.length → bytes.length ≤ 256 →
    ∃ t, s.runs 31 = .next t ∧ t.busy = false ∧ t.err = .noError ∧ t.valid = true ∧
      ∀ f, (t.record.get f).isSome = true

/-- R112 and R172: a running cycle left to itself ends after at most 27 sequencer steps, by commit or by abort. -/
def Obligations.CycleEndsWithin27Steps : Prop :=
  ∀ s : State, s.Inv → s.busy = true → s.agenda = [] →
    ∃ n t, n ≤ 27 - s.upc.toNat ∧ s.runs n = .next t ∧ t.busy = false ∧
      ((t.err = .noError ∧ t.valid = true ∧ ∀ f, (t.record.get f).isSome = true) ∨
        (t.err = .malformedInput ∧ t.record = s.record ∧ t.valid = s.valid))
end

