-- ==== Sys2Proof/Laws/Assembler.lean ====
section
/-! SUPPORT. How the assembler reads a line: trimming, splitting at commas, and a line of clean texts as a whole. -/

namespace Sys2Proof.Machine

open Sys2Proof

/-- A text with no blank, no comma and no semicolon, and not empty: a mnemonic or an operand of R72. -/
structure IsToken (t : List Char) : Prop where
  ne_nil : t ≠ []
  notBlank : ∀ c ∈ t, isBlank c = false
  notComma : ',' ∉ t
  notSemi : ';' ∉ t

/-- A text whose ends are no blanks is trimmed already, and blanks before it go. -/
theorem trimBlanks_pad (n : Nat) (cs : List Char) (h : cs ≠ []) (hh : isBlank (cs.head h) = false)
    (hl : isBlank (cs.getLast h) = false) : trimBlanks (List.replicate n ' ' ++ cs) = cs := by
  have hd : (List.replicate n ' ' ++ cs).dropWhile isBlank = cs := by
    rw [List.dropWhile_append_of_pos (by intro a ha; rw [List.eq_of_mem_replicate ha]; rfl)]
    obtain ⟨c, cs, rfl⟩ := List.exists_cons_of_ne_nil h
    simp_all
  have hr : cs.reverse.dropWhile isBlank = cs.reverse := by
    have hne : cs.reverse ≠ [] := by simpa using h
    obtain ⟨c, l, e⟩ := List.exists_cons_of_ne_nil hne
    have hc : c = cs.getLast h := by
      have := List.head_reverse hne
      simpa [e] using this
    rw [e, List.dropWhile_cons_of_neg (by rw [hc, hl]; simp)]
  rw [trimBlanks, hd, hr, List.reverse_reverse]

/-- A trimmed text stays. -/
theorem trimBlanks_of_ends (cs : List Char) (h : cs ≠ []) (hh : isBlank (cs.head h) = false)
    (hl : isBlank (cs.getLast h) = false) : trimBlanks cs = cs := trimBlanks_pad 0 cs h hh hl

/-- Blanks before a token go. -/
theorem IsToken.trim_pad {t : List Char} (ht : IsToken t) (n : Nat) : trimBlanks (List.replicate n ' ' ++ t) = t :=
  trimBlanks_pad n t ht.ne_nil (ht.notBlank _ (List.head_mem _)) (ht.notBlank _ (List.getLast_mem _))

/-- There is always a first piece. -/
theorem splitCommas_ne_nil (cs : List Char) : splitCommas cs ≠ [] := by
  induction cs with
  | nil => simp [splitCommas]
  | cons c cs ih =>
    obtain ⟨t, ts, e⟩ := List.exists_cons_of_ne_nil ih
    simp only [splitCommas, e]
    split <;> simp

/-- A comma ends the first piece. -/
theorem splitCommas_comma (cs : List Char) : splitCommas (',' :: cs) = [] :: splitCommas cs := by
  obtain ⟨t, ts, e⟩ := List.exists_cons_of_ne_nil (splitCommas_ne_nil cs)
  simp [splitCommas, e]

/-- Characters that are no commas belong to the first piece. -/
theorem splitCommas_append {p cs t : List Char} {ts : List (List Char)} (hp : ',' ∉ p) (h : splitCommas cs = t :: ts) :
    splitCommas (p ++ cs) = (p ++ t) :: ts := by
  induction p with
  | nil => exact h
  | cons c p ih =>
    simp only [List.mem_cons, not_or] at hp
    have := ih hp.2
    simp [splitCommas, this, Ne.symm hp.1]

/-- The operands of a line, after the blanks are trimmed. -/
theorem operands_intercalate (n : Nat) (t : List Char) (ts : List (List Char)) (h : ∀ u ∈ t :: ts, IsToken u) :
    ∃ us, splitCommas ((',' :: List.replicate n ' ').intercalate (t :: ts)) = t :: us ∧ us.map trimBlanks = ts := by
  induction ts generalizing t with
  | nil =>
    refine ⟨[], ?_, rfl⟩
    have := splitCommas_append (cs := []) (h t (by simp)).notComma rfl
    simpa [List.intercalate] using this
  | cons u ts ih =>
    obtain ⟨us, hs, hm⟩ := ih u fun v hv => h v (by simp only [List.mem_cons] at hv ⊢; exact .inr hv)
    refine ⟨(List.replicate n ' ' ++ u) :: us, ?_, ?_⟩
    · have hpad := splitCommas_append (p := List.replicate n ' ') (by simp [List.mem_replicate]) hs
      have hcomma := splitCommas_comma (List.replicate n ' ' ++ (',' :: List.replicate n ' ').intercalate (u :: ts))
      have := splitCommas_append (h t (by simp)).notComma (hcomma.trans (congrArg _ hpad))
      rw [List.append_nil] at this
      rw [← this]
      simp [List.intercalate]
    · rw [List.map_cons, hm, (h u (by simp)).trim_pad]

/-- The characters of a line's operands: none begins a comment. -/
theorem notSemi_intercalate (n : Nat) (ts : List (List Char)) (h : ∀ u ∈ ts, IsToken u) :
    ∀ c ∈ (',' :: List.replicate n ' ').intercalate ts, c ≠ ';' := by
  induction ts with
  | nil => simp [List.intercalate]
  | cons t ts ih =>
    have ht : ∀ c ∈ t, c ≠ ';' := fun c hc e => (h t (by simp)).notSemi (e ▸ hc)
    cases ts with
    | nil => simpa [List.intercalate] using ht
    | cons u ts =>
      have e : (',' :: List.replicate n ' ').intercalate (t :: u :: ts) =
          t ++ (',' :: List.replicate n ' ') ++ (',' :: List.replicate n ' ').intercalate (u :: ts) := by
        simp [List.intercalate]
      rw [e]
      intro c hc
      simp only [List.mem_append, List.mem_cons, List.mem_replicate] at hc
      rcases hc with (hc | rfl | ⟨-, rfl⟩) | hc
      · exact ht c hc
      · decide
      · decide
      · exact ih (fun v hv => h v (by simp only [List.mem_cons] at hv ⊢; exact .inr hv)) c hc

/-- The last character of a line's operands is the last of its last operand. -/
theorem getLast_intercalate (n : Nat) (t : List Char) (ts : List (List Char)) (h : ∀ u ∈ t :: ts, IsToken u) :
    ∃ hne, isBlank (((',' :: List.replicate n ' ').intercalate (t :: ts)).getLast hne) = false := by
  induction ts generalizing t with
  | nil =>
    have ht := h t (by simp)
    refine ⟨by simpa [List.intercalate] using ht.ne_nil, ht.notBlank _ ?_⟩
    simp [List.intercalate]
  | cons u ts ih =>
    obtain ⟨hne, hb⟩ := ih u fun v hv => h v (by simp only [List.mem_cons] at hv ⊢; exact .inr hv)
    have e : (',' :: List.replicate n ' ').intercalate (t :: u :: ts) =
        t ++ (',' :: List.replicate n ' ') ++ (',' :: List.replicate n ' ').intercalate (u :: ts) := by
      simp [List.intercalate]
    refine ⟨by rw [e]; simp, ?_⟩
    simp only [e, List.getLast_append_of_ne_nil _ hne, hb]

/-- A line of clean texts is read as its mnemonic and its operands. -/
theorem assembleLine_asmText (m n : Nat) (mnemonic : String) (t : List Char) (ts : List (List Char))
    (hm : IsToken mnemonic.toList) (h : ∀ u ∈ t :: ts, IsToken u) :
    assembleLine (asmText m n mnemonic (t :: ts)) = assembleParts mnemonic.toList (t :: ts) := by
  have ht := h t (by simp)
  obtain ⟨hne, hlast⟩ := getLast_intercalate n t ts h
  have hhead : isBlank (((',' :: List.replicate n ' ').intercalate (t :: ts)).head hne) = false := by
    obtain ⟨c, cs, e⟩ := List.exists_cons_of_ne_nil ht.ne_nil
    have hc := ht.notBlank c (by simp [e])
    cases ts <;> simp [List.intercalate, e, hc]
  obtain ⟨us, hsplit, hmap⟩ := operands_intercalate n t ts h
  have hsemi := notSemi_intercalate n (t :: ts) h
  generalize hops : (',' :: List.replicate n ' ').intercalate (t :: ts) = ops at *
  have hline : (asmText m n mnemonic (t :: ts)).takeWhile (fun c => decide (c ≠ ';')) = asmText m n mnemonic (t :: ts) := by
    rw [List.takeWhile_eq_self_iff]
    intro c hc
    simp only [asmText, hops, List.mem_append, List.mem_replicate] at hc
    rcases hc with (hc | ⟨-, rfl⟩) | hc
    · exact decide_eq_true fun e => hm.notSemi (e ▸ hc)
    · decide
    · exact decide_eq_true (hsemi c hc)
  have htrim : trimBlanks (asmText m n mnemonic (t :: ts)) = asmText m n mnemonic (t :: ts) := by
    refine trimBlanks_of_ends _ (by simp [asmText]) ?_ ?_
    · simp only [asmText, List.append_assoc, List.head_append_of_ne_nil hm.ne_nil]
      exact hm.notBlank _ (List.head_mem _)
    · simp only [asmText, hops, List.getLast_append_of_ne_nil _ hne, hlast]
  have hmn : (asmText m n mnemonic (t :: ts)).takeWhile (fun c => !isBlank c) = mnemonic.toList := by
    rw [asmText, List.append_assoc, List.takeWhile_append_of_pos (by intro c hc; simp [hm.notBlank c hc]),
      List.replicate_succ, List.cons_append, List.takeWhile_cons_of_neg (by decide), List.append_nil]
  have hdrop : (asmText m n mnemonic (t :: ts)).dropWhile (fun c => !isBlank c) =
      List.replicate (m + 1) ' ' ++ ops := by
    rw [asmText, List.append_assoc, List.dropWhile_append_of_pos (by intro c hc; simp [hm.notBlank c hc]),
      List.replicate_succ, List.cons_append, List.dropWhile_cons_of_neg (by decide), hops, List.cons_append]
  have hne' : asmText m n mnemonic (t :: ts) ≠ [] := by simp [asmText]
  simp only [assembleLine, hline, htrim, hmn, hdrop, trimBlanks_pad _ _ hne hhead hlast, if_neg hne, if_neg hne', hsplit,
    List.map_cons, hmap]
  rw [show trimBlanks t = t from ht.trim_pad 0]

/-- Whether a text is a token, as a check. -/
def isToken (t : List Char) : Bool := !t.isEmpty && t.all fun c => !isBlank c && c != ',' && c != ';'

/-- The check is sound. -/
theorem IsToken.of_check {t : List Char} (h : isToken t = true) : IsToken t := by
  simp only [isToken, Bool.and_eq_true, List.all_eq_true, Bool.not_eq_true', bne_iff_ne] at h
  refine ⟨by simpa using h.1, fun c hc => (h.2 c hc).1.1, fun hc => (h.2 _ hc).1.2 rfl, fun hc => (h.2 _ hc).2 rfl⟩

/-- The texts of a number are tokens that read as it. -/
def numberReads (k : Nat) : Bool :=
  (numberTexts (BitVec.ofNat 8 k)).all fun t => isToken t && parseByte t == some (BitVec.ofNat 8 k)

/-- The check passes for every byte. -/
theorem numberReads_all : (List.range 256).all numberReads = true := by decide +kernel

/-- A text of a number is a token that reads as that number. -/
theorem numberTexts_spec {x : Byte} {t : List Char} (h : t ∈ numberTexts x) : IsToken t ∧ parseByte t = some x := by
  have hx : BitVec.ofNat 8 x.toNat = x := by simp
  have hk := List.all_eq_true.mp numberReads_all x.toNat (List.mem_range.mpr x.isLt)
  have ht := List.all_eq_true.mp hk t (by rw [hx]; exact h)
  simp only [Bool.and_eq_true, beq_iff_eq, hx] at ht
  exact ⟨.of_check ht.1, ht.2⟩

/-- The text of an auxiliary index is a token that reads as that index. -/
theorem auxText_spec (x : AuxReg) : IsToken (auxText x) ∧ parseAux (auxText x) = some x :=
  ⟨.of_check (by cases x <;> decide), by cases x <;> decide⟩

/-- The name of a field is a token that reads as that field. -/
theorem name_spec (f : Field) : IsToken f.name.toList ∧ parseField f.name.toList = some f :=
  ⟨.of_check (by cases f <;> decide), by cases f <;> decide⟩

end Sys2Proof.Machine
end

