-- ==== Sys2Proof/Laws/State.lean ====
section
/-! SUPPORT. One lemma per field per update of the state, true by rfl; reads of record files after writes. -/

namespace Sys2Proof.Machine

open Sys2Proof

variable (s : State)

/-! ### discardStaged -/

@[simp] theorem State.discardStaged_record : (s.discardStaged).record = s.record := rfl
@[simp] theorem State.discardStaged_valid : (s.discardStaged).valid = s.valid := rfl
@[simp] theorem State.discardStaged_staging : (s.discardStaged).staging = {} := rfl
@[simp] theorem State.discardStaged_written : (s.discardStaged).written = 0 := rfl
@[simp] theorem State.discardStaged_tFine : (s.discardStaged).tFine = s.tFine := rfl
@[simp] theorem State.discardStaged_tfv : (s.discardStaged).tfv = s.tfv := rfl
@[simp] theorem State.discardStaged_buf : (s.discardStaged).buf = s.buf := rfl
@[simp] theorem State.discardStaged_blen : (s.discardStaged).blen = s.blen := rfl
@[simp] theorem State.discardStaged_aux : (s.discardStaged).aux = s.aux := rfl
@[simp] theorem State.discardStaged_auxv : (s.discardStaged).auxv = s.auxv := rfl
@[simp] theorem State.discardStaged_upc : (s.discardStaged).upc = s.upc := rfl
@[simp] theorem State.discardStaged_busy : (s.discardStaged).busy = s.busy := rfl
@[simp] theorem State.discardStaged_err : (s.discardStaged).err = s.err := rfl
@[simp] theorem State.discardStaged_errinfo : (s.discardStaged).errinfo = s.errinfo := rfl
@[simp] theorem State.discardStaged_prog : (s.discardStaged).prog = s.prog := rfl
@[simp] theorem State.discardStaged_agenda : (s.discardStaged).agenda = s.agenda := rfl
@[simp] theorem State.discardStaged_answer : (s.discardStaged).answer = s.answer := rfl

/-! ### abort src off -/

@[simp] theorem State.abort_record (src : ReadSrc) (off : Byte) : (s.abort src off).record = s.record := rfl
@[simp] theorem State.abort_valid (src : ReadSrc) (off : Byte) : (s.abort src off).valid = s.valid := rfl
@[simp] theorem State.abort_staging (src : ReadSrc) (off : Byte) : (s.abort src off).staging = {} := rfl
@[simp] theorem State.abort_written (src : ReadSrc) (off : Byte) : (s.abort src off).written = 0 := rfl
@[simp] theorem State.abort_tFine (src : ReadSrc) (off : Byte) : (s.abort src off).tFine = s.tFine := rfl
@[simp] theorem State.abort_tfv (src : ReadSrc) (off : Byte) : (s.abort src off).tfv = s.tfv := rfl
@[simp] theorem State.abort_buf (src : ReadSrc) (off : Byte) : (s.abort src off).buf = s.buf := rfl
@[simp] theorem State.abort_blen (src : ReadSrc) (off : Byte) : (s.abort src off).blen = s.blen := rfl
@[simp] theorem State.abort_aux (src : ReadSrc) (off : Byte) : (s.abort src off).aux = s.aux := rfl
@[simp] theorem State.abort_auxv (src : ReadSrc) (off : Byte) : (s.abort src off).auxv = s.auxv := rfl
@[simp] theorem State.abort_upc (src : ReadSrc) (off : Byte) : (s.abort src off).upc = s.upc := rfl
@[simp] theorem State.abort_busy (src : ReadSrc) (off : Byte) : (s.abort src off).busy = false := rfl
@[simp] theorem State.abort_err (src : ReadSrc) (off : Byte) : (s.abort src off).err = .malformedInput := rfl
@[simp] theorem State.abort_errinfo (src : ReadSrc) (off : Byte) : (s.abort src off).errinfo = errInfoWord s.upc src off := rfl
@[simp] theorem State.abort_prog (src : ReadSrc) (off : Byte) : (s.abort src off).prog = s.prog := rfl
@[simp] theorem State.abort_agenda (src : ReadSrc) (off : Byte) : (s.abort src off).agenda = s.agenda := rfl
@[simp] theorem State.abort_answer (src : ReadSrc) (off : Byte) : (s.abort src off).answer = s.answer := rfl

/-! ### startCycle -/

@[simp] theorem State.startCycle_record : (s.startCycle).record = s.record := rfl
@[simp] theorem State.startCycle_valid : (s.startCycle).valid = s.valid := rfl
@[simp] theorem State.startCycle_staging : (s.startCycle).staging = {} := rfl
@[simp] theorem State.startCycle_written : (s.startCycle).written = 0 := rfl
@[simp] theorem State.startCycle_tFine : (s.startCycle).tFine = s.tFine := rfl
@[simp] theorem State.startCycle_tfv : (s.startCycle).tfv = s.tfv := rfl
@[simp] theorem State.startCycle_buf : (s.startCycle).buf = s.buf := rfl
@[simp] theorem State.startCycle_blen : (s.startCycle).blen = s.blen := rfl
@[simp] theorem State.startCycle_aux : (s.startCycle).aux = s.aux := rfl
@[simp] theorem State.startCycle_auxv : (s.startCycle).auxv = s.auxv := rfl
@[simp] theorem State.startCycle_upc : (s.startCycle).upc = 0 := rfl
@[simp] theorem State.startCycle_busy : (s.startCycle).busy = true := rfl
@[simp] theorem State.startCycle_err : (s.startCycle).err = .noError := rfl
@[simp] theorem State.startCycle_errinfo : (s.startCycle).errinfo = 0 := rfl
@[simp] theorem State.startCycle_prog : (s.startCycle).prog = s.prog := rfl
@[simp] theorem State.startCycle_agenda : (s.startCycle).agenda = s.agenda := rfl
@[simp] theorem State.startCycle_answer : (s.startCycle).answer = s.answer := rfl

/-! ### stage f bv -/

@[simp] theorem State.stage_record (f : Field) (bv : BitVec f.width) : (s.stage f bv).record = s.record := rfl
@[simp] theorem State.stage_valid (f : Field) (bv : BitVec f.width) : (s.stage f bv).valid = s.valid := rfl
@[simp] theorem State.stage_staging (f : Field) (bv : BitVec f.width) : (s.stage f bv).staging = s.staging.set f bv := rfl
@[simp] theorem State.stage_written (f : Field) (bv : BitVec f.width) : (s.stage f bv).written = s.written ||| (1#26 <<< f.index) := rfl
@[simp] theorem State.stage_tFine (f : Field) (bv : BitVec f.width) : (s.stage f bv).tFine = s.tFine := rfl
@[simp] theorem State.stage_tfv (f : Field) (bv : BitVec f.width) : (s.stage f bv).tfv = s.tfv := rfl
@[simp] theorem State.stage_buf (f : Field) (bv : BitVec f.width) : (s.stage f bv).buf = s.buf := rfl
@[simp] theorem State.stage_blen (f : Field) (bv : BitVec f.width) : (s.stage f bv).blen = s.blen := rfl
@[simp] theorem State.stage_aux (f : Field) (bv : BitVec f.width) : (s.stage f bv).aux = s.aux := rfl
@[simp] theorem State.stage_auxv (f : Field) (bv : BitVec f.width) : (s.stage f bv).auxv = s.auxv := rfl
@[simp] theorem State.stage_upc (f : Field) (bv : BitVec f.width) : (s.stage f bv).upc = s.upc := rfl
@[simp] theorem State.stage_busy (f : Field) (bv : BitVec f.width) : (s.stage f bv).busy = s.busy := rfl
@[simp] theorem State.stage_err (f : Field) (bv : BitVec f.width) : (s.stage f bv).err = s.err := rfl
@[simp] theorem State.stage_errinfo (f : Field) (bv : BitVec f.width) : (s.stage f bv).errinfo = s.errinfo := rfl
@[simp] theorem State.stage_prog (f : Field) (bv : BitVec f.width) : (s.stage f bv).prog = s.prog := rfl
@[simp] theorem State.stage_agenda (f : Field) (bv : BitVec f.width) : (s.stage f bv).agenda = s.agenda := rfl
@[simp] theorem State.stage_answer (f : Field) (bv : BitVec f.width) : (s.stage f bv).answer = s.answer := rfl

/-! ### advance -/

@[simp] theorem State.advance_record : (s.advance).record = s.record := rfl
@[simp] theorem State.advance_valid : (s.advance).valid = s.valid := rfl
@[simp] theorem State.advance_staging : (s.advance).staging = s.staging := rfl
@[simp] theorem State.advance_written : (s.advance).written = s.written := rfl
@[simp] theorem State.advance_tFine : (s.advance).tFine = s.tFine := rfl
@[simp] theorem State.advance_tfv : (s.advance).tfv = s.tfv := rfl
@[simp] theorem State.advance_buf : (s.advance).buf = s.buf := rfl
@[simp] theorem State.advance_blen : (s.advance).blen = s.blen := rfl
@[simp] theorem State.advance_aux : (s.advance).aux = s.aux := rfl
@[simp] theorem State.advance_auxv : (s.advance).auxv = s.auxv := rfl
@[simp] theorem State.advance_upc : (s.advance).upc = s.upc + 1 := rfl
@[simp] theorem State.advance_busy : (s.advance).busy = s.busy := rfl
@[simp] theorem State.advance_err : (s.advance).err = s.err := rfl
@[simp] theorem State.advance_errinfo : (s.advance).errinfo = s.errinfo := rfl
@[simp] theorem State.advance_prog : (s.advance).prog = s.prog := rfl
@[simp] theorem State.advance_agenda : (s.advance).agenda = s.agenda := rfl
@[simp] theorem State.advance_answer : (s.advance).answer = s.answer := rfl

/-! ### commit -/

@[simp] theorem State.commit_record : (s.commit).record = s.staging := rfl
@[simp] theorem State.commit_valid : (s.commit).valid = true := rfl
@[simp] theorem State.commit_staging : (s.commit).staging = {} := rfl
@[simp] theorem State.commit_written : (s.commit).written = 0 := rfl
@[simp] theorem State.commit_tFine : (s.commit).tFine = s.tFine := rfl
@[simp] theorem State.commit_tfv : (s.commit).tfv = false := rfl
@[simp] theorem State.commit_buf : (s.commit).buf = s.buf := rfl
@[simp] theorem State.commit_blen : (s.commit).blen = s.blen := rfl
@[simp] theorem State.commit_aux : (s.commit).aux = s.aux := rfl
@[simp] theorem State.commit_auxv : (s.commit).auxv = s.auxv := rfl
@[simp] theorem State.commit_upc : (s.commit).upc = s.upc := rfl
@[simp] theorem State.commit_busy : (s.commit).busy = false := rfl
@[simp] theorem State.commit_err : (s.commit).err = s.err := rfl
@[simp] theorem State.commit_errinfo : (s.commit).errinfo = s.errinfo := rfl
@[simp] theorem State.commit_prog : (s.commit).prog = s.prog := rfl
@[simp] theorem State.commit_agenda : (s.commit).agenda = s.agenda := rfl
@[simp] theorem State.commit_answer : (s.commit).answer = s.answer := rfl

/-! ### answering a -/

@[simp] theorem State.answering_record (a : Answer) : (s.answering a).record = s.record := rfl
@[simp] theorem State.answering_valid (a : Answer) : (s.answering a).valid = s.valid := rfl
@[simp] theorem State.answering_staging (a : Answer) : (s.answering a).staging = s.staging := rfl
@[simp] theorem State.answering_written (a : Answer) : (s.answering a).written = s.written := rfl
@[simp] theorem State.answering_tFine (a : Answer) : (s.answering a).tFine = s.tFine := rfl
@[simp] theorem State.answering_tfv (a : Answer) : (s.answering a).tfv = s.tfv := rfl
@[simp] theorem State.answering_buf (a : Answer) : (s.answering a).buf = s.buf := rfl
@[simp] theorem State.answering_blen (a : Answer) : (s.answering a).blen = s.blen := rfl
@[simp] theorem State.answering_aux (a : Answer) : (s.answering a).aux = s.aux := rfl
@[simp] theorem State.answering_auxv (a : Answer) : (s.answering a).auxv = s.auxv := rfl
@[simp] theorem State.answering_upc (a : Answer) : (s.answering a).upc = s.upc := rfl
@[simp] theorem State.answering_busy (a : Answer) : (s.answering a).busy = s.busy := rfl
@[simp] theorem State.answering_err (a : Answer) : (s.answering a).err = s.err := rfl
@[simp] theorem State.answering_errinfo (a : Answer) : (s.answering a).errinfo = s.errinfo := rfl
@[simp] theorem State.answering_prog (a : Answer) : (s.answering a).prog = s.prog := rfl
@[simp] theorem State.answering_agenda (a : Answer) : (s.answering a).agenda = s.agenda := rfl
@[simp] theorem State.answering_answer (a : Answer) : (s.answering a).answer = some a := rfl

/-! ### takeTurn -/

@[simp] theorem State.takeTurn_record : (s.takeTurn).record = s.record := rfl
@[simp] theorem State.takeTurn_valid : (s.takeTurn).valid = s.valid := rfl
@[simp] theorem State.takeTurn_staging : (s.takeTurn).staging = s.staging := rfl
@[simp] theorem State.takeTurn_written : (s.takeTurn).written = s.written := rfl
@[simp] theorem State.takeTurn_tFine : (s.takeTurn).tFine = s.tFine := rfl
@[simp] theorem State.takeTurn_tfv : (s.takeTurn).tfv = s.tfv := rfl
@[simp] theorem State.takeTurn_buf : (s.takeTurn).buf = s.buf := rfl
@[simp] theorem State.takeTurn_blen : (s.takeTurn).blen = s.blen := rfl
@[simp] theorem State.takeTurn_aux : (s.takeTurn).aux = s.aux := rfl
@[simp] theorem State.takeTurn_auxv : (s.takeTurn).auxv = s.auxv := rfl
@[simp] theorem State.takeTurn_upc : (s.takeTurn).upc = s.upc := rfl
@[simp] theorem State.takeTurn_busy : (s.takeTurn).busy = s.busy := rfl
@[simp] theorem State.takeTurn_err : (s.takeTurn).err = s.err := rfl
@[simp] theorem State.takeTurn_errinfo : (s.takeTurn).errinfo = s.errinfo := rfl
@[simp] theorem State.takeTurn_prog : (s.takeTurn).prog = s.prog := rfl
@[simp] theorem State.takeTurn_agenda : (s.takeTurn).agenda = s.agenda.tail := rfl
@[simp] theorem State.takeTurn_answer : (s.takeTurn).answer = none := rfl

/-! ### invalidate .bufSel -/

@[simp] theorem State.invalidate_buf_record : (s.invalidate .bufSel).record = s.record := rfl
@[simp] theorem State.invalidate_buf_valid : (s.invalidate .bufSel).valid = s.valid := rfl
@[simp] theorem State.invalidate_buf_staging : (s.invalidate .bufSel).staging = s.staging := rfl
@[simp] theorem State.invalidate_buf_written : (s.invalidate .bufSel).written = s.written := rfl
@[simp] theorem State.invalidate_buf_tFine : (s.invalidate .bufSel).tFine = s.tFine := rfl
@[simp] theorem State.invalidate_buf_tfv : (s.invalidate .bufSel).tfv = s.tfv := rfl
@[simp] theorem State.invalidate_buf_buf : (s.invalidate .bufSel).buf = [] := rfl
@[simp] theorem State.invalidate_buf_blen : (s.invalidate .bufSel).blen = 0 := rfl
@[simp] theorem State.invalidate_buf_aux : (s.invalidate .bufSel).aux = s.aux := rfl
@[simp] theorem State.invalidate_buf_auxv : (s.invalidate .bufSel).auxv = s.auxv := rfl
@[simp] theorem State.invalidate_buf_upc : (s.invalidate .bufSel).upc = s.upc := rfl
@[simp] theorem State.invalidate_buf_busy : (s.invalidate .bufSel).busy = s.busy := rfl
@[simp] theorem State.invalidate_buf_err : (s.invalidate .bufSel).err = s.err := rfl
@[simp] theorem State.invalidate_buf_errinfo : (s.invalidate .bufSel).errinfo = s.errinfo := rfl
@[simp] theorem State.invalidate_buf_prog : (s.invalidate .bufSel).prog = s.prog := rfl
@[simp] theorem State.invalidate_buf_agenda : (s.invalidate .bufSel).agenda = s.agenda := rfl
@[simp] theorem State.invalidate_buf_answer : (s.invalidate .bufSel).answer = s.answer := rfl

/-! ### invalidate .auxSel -/

@[simp] theorem State.invalidate_aux_record : (s.invalidate .auxSel).record = s.record := rfl
@[simp] theorem State.invalidate_aux_valid : (s.invalidate .auxSel).valid = s.valid := rfl
@[simp] theorem State.invalidate_aux_staging : (s.invalidate .auxSel).staging = s.staging := rfl
@[simp] theorem State.invalidate_aux_written : (s.invalidate .auxSel).written = s.written := rfl
@[simp] theorem State.invalidate_aux_tFine : (s.invalidate .auxSel).tFine = s.tFine := rfl
@[simp] theorem State.invalidate_aux_tfv : (s.invalidate .auxSel).tfv = s.tfv := rfl
@[simp] theorem State.invalidate_aux_buf : (s.invalidate .auxSel).buf = s.buf := rfl
@[simp] theorem State.invalidate_aux_blen : (s.invalidate .auxSel).blen = s.blen := rfl
@[simp] theorem State.invalidate_aux_aux : (s.invalidate .auxSel).aux = {} := rfl
@[simp] theorem State.invalidate_aux_auxv : (s.invalidate .auxSel).auxv = false := rfl
@[simp] theorem State.invalidate_aux_upc : (s.invalidate .auxSel).upc = s.upc := rfl
@[simp] theorem State.invalidate_aux_busy : (s.invalidate .auxSel).busy = s.busy := rfl
@[simp] theorem State.invalidate_aux_err : (s.invalidate .auxSel).err = s.err := rfl
@[simp] theorem State.invalidate_aux_errinfo : (s.invalidate .auxSel).errinfo = s.errinfo := rfl
@[simp] theorem State.invalidate_aux_prog : (s.invalidate .auxSel).prog = s.prog := rfl
@[simp] theorem State.invalidate_aux_agenda : (s.invalidate .auxSel).agenda = s.agenda := rfl
@[simp] theorem State.invalidate_aux_answer : (s.invalidate .auxSel).answer = s.answer := rfl

/-! ### starting -/

@[simp] theorem State.starting_record : (s.starting).record = s.record := rfl
@[simp] theorem State.starting_valid : (s.starting).valid = s.valid := rfl
@[simp] theorem State.starting_staging : (s.starting).staging = s.staging := rfl
@[simp] theorem State.starting_written : (s.starting).written = s.written := rfl
@[simp] theorem State.starting_tFine : (s.starting).tFine = s.tFine := rfl
@[simp] theorem State.starting_tfv : (s.starting).tfv = s.tfv := rfl
@[simp] theorem State.starting_buf : (s.starting).buf = s.buf := rfl
@[simp] theorem State.starting_blen : (s.starting).blen = s.blen := rfl
@[simp] theorem State.starting_aux : (s.starting).aux = s.aux := rfl
@[simp] theorem State.starting_auxv : (s.starting).auxv = s.auxv := rfl
@[simp] theorem State.starting_upc : (s.starting).upc = s.upc := rfl
@[simp] theorem State.starting_busy : (s.starting).busy = s.busy := rfl
@[simp] theorem State.starting_err : (s.starting).err = s.err := rfl
@[simp] theorem State.starting_errinfo : (s.starting).errinfo = s.errinfo := rfl
@[simp] theorem State.starting_prog : (s.starting).prog = s.prog := rfl
@[simp] theorem State.starting_agenda : (s.starting).agenda = [.host .start] := rfl
@[simp] theorem State.starting_answer : (s.starting).answer = s.answer := rfl

/-! ### Record files -/

/-- A register just written holds what was written. -/
@[simp] theorem RegFile.get_set_same (g : RegFile) (f : Field) (v : BitVec f.width) : (g.set f v).get f = some v := by
  cases f <;> rfl

/-- Registers are disjoint storage. -/
theorem RegFile.get_set_other (g : RegFile) (f h : Field) (v : BitVec f.width) (hne : h ≠ f) :
    (g.set f v).get h = g.get h := by
  cases f <;> cases h <;> first | rfl | exact absurd rfl hne

/-- A fresh record file holds no value. -/
@[simp] theorem RegFile.get_empty (f : Field) : ({} : RegFile).get f = none := by
  cases f <;> rfl

/-- A fresh auxiliary file holds no value. -/
@[simp] theorem AuxFile.get_empty (x : AuxReg) : ({} : AuxFile).get x = none := by
  cases x <;> rfl

/-- Reading an auxiliary file that was just supplied. -/
@[simp] theorem AuxFile.get_mk (b0 b1 b2 : Option Byte) (x : AuxReg) :
    AuxFile.get ⟨b0, b1, b2⟩ x = match x with | .aux0 => b0 | .aux1 => b1 | .aux2 => b2 := by
  cases x <;> rfl

end Sys2Proof.Machine

namespace Sys2Proof

/-- Field indexes are below 26. -/
theorem Field.index_lt (f : Field) : f.index < 26 := by
  cases f <;> decide

/-- Two fields with one index are one field. -/
theorem Field.index_inj {f h : Field} (e : f.index = h.index) : f = h := by
  have hf := Field.ofIndex_bits f
  have hh := Field.ofIndex_bits h
  simp only [Field.bits, e] at hf hh
  exact Option.some.inj (hf.symm.trans hh)

/-- Every field is in the list of all fields. -/
@[simp] theorem Field.mem_all (f : Field) : f ∈ Field.all := by
  cases f <;> decide

end Sys2Proof

namespace Sys2Proof.Machine

open Sys2Proof

variable (s : State)

/-- Staging a field sets its bit of `W` and no other. -/
@[simp] theorem State.isWritten_stage (f h : Field) (v : BitVec f.width) :
    (s.stage f v).isWritten h = (s.isWritten h || decide (h = f)) := by
  have hf := Field.index_lt f
  have hh := Field.index_lt h
  simp only [State.isWritten, State.stage_written, BitVec.getLsbD_or, BitVec.getLsbD_shiftLeft]
  congr 1
  by_cases e : h = f
  · subst e
    simp [hf]
  · have hi : h.index ≠ f.index := fun he => e (Field.index_inj he)
    by_cases hlt : h.index < f.index
    · simp [e, hlt]
    · have : h.index - f.index ≠ 0 := by omega
      simp [e, BitVec.getLsbD_one, this]

/-- `isWritten` reads `W` alone. -/
@[simp] theorem State.isWritten_advance (f : Field) : s.advance.isWritten f = s.isWritten f := rfl

end Sys2Proof.Machine
end

