-- ==== Sys2Proof/Laws/Memory.lean ====
section
/-! SUPPORT. The buffer space: what `HostFill` leaves, and that every memory operation keeps the canonical form. -/

namespace Sys2Proof.Machine

open Sys2Proof

/-- What an offset of a filled memory holds. -/
theorem Memory.read_fillFrom (bytes : List Byte) (i k : Nat) :
    (Memory.fillFrom i bytes).read k = if i ≤ k then bytes[k - i]? else none := by
  induction bytes generalizing i with
  | nil => simp [Memory.fillFrom, Memory.read]
  | cons x xs ih =>
    simp only [Memory.fillFrom, Memory.read, ih]
    rcases Nat.lt_trichotomy i k with h | h | h
    · have e : k - i = k - (i + 1) + 1 := by omega
      simp [Nat.ne_of_lt h, Nat.le_of_lt h, Nat.succ_le_of_lt h, e]
    · simp [h]
    · have h1 : ¬ i ≤ k := by omega
      have h2 : ¬ i + 1 ≤ k := by omega
      simp [Nat.ne_of_gt h, h1, h2]

/-- After `HostFill(bytes)` offset `k` holds `bytes[k]`, and no value beyond the end. -/
@[simp] theorem Memory.read_fill (bytes : List Byte) (k : Nat) : (Memory.fill bytes).read k = bytes[k]? := by
  simp [Memory.fill, Memory.read_fillFrom]

/-- An empty memory holds no value. -/
@[simp] theorem Memory.read_nil (k : Nat) : Memory.read [] k = none := rfl

/-- The offsets of a filled memory are consecutive. -/
theorem Memory.offsets_fillFrom (bytes : List Byte) (i : Nat) :
    (Memory.fillFrom i bytes).map Prod.fst = List.range' i bytes.length := by
  induction bytes generalizing i with
  | nil => rfl
  | cons x xs ih => simp [Memory.fillFrom, ih, List.range'_succ]

/-- `HostFill` leaves the canonical form. -/
theorem Memory.wf_fill (bytes : List Byte) (h : bytes.length ≤ 256) : (Memory.fill bytes).wf = true := by
  have hmem : ∀ c ∈ Memory.fill bytes, c.1 < 256 := by
    intro c hc
    have : c.1 ∈ (Memory.fill bytes).map Prod.fst := List.mem_map_of_mem hc
    rw [Memory.fill, Memory.offsets_fillFrom, List.mem_range'_1] at this
    omega
  simp only [Memory.wf, Bool.and_eq_true, decide_eq_true_eq, List.all_eq_true, Config.bufCap]
  refine ⟨?_, hmem⟩
  rw [Memory.fill, Memory.offsets_fillFrom]
  exact List.pairwise_lt_range'

/-- The empty buffer, after reset and after a transport failure, has the canonical form. -/
theorem Memory.wf_nil : Memory.wf [] = true := rfl

/-- What a memory holds at an offset is an entry of it. -/
theorem Memory.read_eq_some {m : Memory} (h : (m.map Prod.fst).Pairwise (· < ·)) {k : Nat} {x : Byte} :
    m.read k = some x ↔ (k, x) ∈ m := by
  induction m with
  | nil => simp [Memory.read]
  | cons c m ih =>
    obtain ⟨a, y⟩ := c
    simp only [List.map_cons, List.pairwise_cons, List.mem_map] at h
    by_cases hk : a = k
    · subst hk
      have hn : ∀ z, (a, z) ∉ m := fun z hz => Nat.lt_irrefl _ (h.1 a ⟨_, hz, rfl⟩)
      simp [Memory.read, hn, eq_comm]
    · simp [Memory.read, hk, ih h.2, Ne.symm hk]

/-- In canonical form equal contents are equal data. -/
theorem Memory.ext_read {m n : Memory} (hm : m.wf = true) (hn : n.wf = true) (h : ∀ k, m.read k = n.read k) : m = n := by
  simp only [Memory.wf, Bool.and_eq_true, decide_eq_true_eq] at hm hn
  have hp : m.Perm n := by
    refine (List.perm_ext_iff_of_nodup ?_ ?_).mpr fun c => ?_
    · exact List.Nodup.of_map _ (hm.1.imp Nat.ne_of_lt)
    · exact List.Nodup.of_map _ (hn.1.imp Nat.ne_of_lt)
    · rw [← Memory.read_eq_some hm.1, ← Memory.read_eq_some hn.1, h]
  refine List.Perm.eq_of_pairwise (le := fun a b => a.1 < b.1) (fun a b _ _ h1 h2 => ?_) ?_ ?_ hp
  · exact absurd h1 (Nat.lt_asymm h2)
  · exact List.pairwise_map.mp hm.1
  · exact List.pairwise_map.mp hn.1

end Sys2Proof.Machine
end

