-- ==== Sys2Proof/Laws/Exec.lean ====
section
/-! SUPPORT. What the shared operations and the meanings can do, said once. -/

namespace Sys2Proof.Machine

open Sys2Proof

/-- `BufRead` raises exactly when the read fails. -/
theorem bufRead_eq (s : State) (k : Byte) :
    bufRead k s = if s.readFails (.buffer, k) then .malformed .buffer k else .ofStorage (s.buf.read k.toNat) := by
  simp [bufRead, State.readFails]

/-- `AuxRead` raises exactly when the read fails. -/
theorem auxRead_eq (s : State) (x : AuxReg) :
    auxRead x s = if s.readFails (.aux, x.byte) then .malformed .aux x.byte else .ofStorage (s.aux.get x) := by
  cases h : s.auxv <;> simp [auxRead, State.readFails, h]

/-- Going on with what storage holds. -/
theorem withByte_ofStorage (o : Option Byte) (s : State) (k : Byte → Host.Outcome State Fault Refusal) :
    withByte (.ofStorage o) s k = match o with | some x => k x | none => .fault .noValue := by
  cases o <;> rfl

/-- A buffer byte inside `BLEN` is held. -/
theorem State.Held.buf_some {s : State} (hs : s.Held) {k : Byte} (h : s.readFails (.buffer, k) = false) :
    ∃ x, s.buf.read k.toNat = some x := by
  apply Option.isSome_iff_exists.mp
  apply hs.1
  simpa [State.readFails] using h

/-- An auxiliary byte is held when `AUXV = 1`. -/
theorem State.Held.aux_some {s : State} (hs : s.Held) {x : AuxReg} {b : Byte} (h : s.readFails (.aux, b) = false) :
    ∃ y, s.aux.get x = some y := by
  apply Option.isSome_iff_exists.mp
  apply hs.2
  simpa [State.readFails] using h

/-- How an extraction goes on after its reads: the first failing read aborts, else the result is staged. -/
def afterReads (i : Instr) (rd : Field) (s : State) : Host.Outcome State Fault Refusal :=
  match i.reads.find? s.readFails with
  | some r => .next (s.abort r.1 r.2)
  | none =>
    match s.resultBits i rd with
    | some v => .next (s.stage rd v).advance
    | none => .fault .noValue

/-- The meaning of an extraction bound to its destination: one equation for the eight of them. -/
theorem exec_of_dest (i : Instr) (rd : Field) (s : State) (hs : s.Held) (hd : i.dest = some rd) (hb : rd.opOf = i.op) :
    exec i s = afterReads i rd s := by
  cases i <;> simp only [Instr.dest, Option.some.injEq, reduceCtorEq] at hd <;> subst hd <;>
    simp only [Instr.op] at hb <;>
    simp only [exec, execUword, execSword, execSbyte, execUbyte, execPk12l, execPk12h, execAmsk, execAsbyte, extractPair,
      extractByte, extractAux, bound, hb, if_true, bufRead_eq, auxRead_eq, afterReads, Instr.reads, List.find?_cons,
      List.find?_nil, finish, State.resultBits]
  case uword a b | sword a b | pk12l a b | pk12h a b =>
    cases ha : s.readFails (.buffer, a)
    · obtain ⟨m, hm⟩ := hs.buf_some ha
      cases hbb : s.readFails (.buffer, b)
      · obtain ⟨l, hl⟩ := hs.buf_some hbb
        simp [hm, hl, withByte, ReadResult.ofStorage]
      · simp [hm, withByte, ReadResult.ofStorage]
    · simp [withByte]
  case sbyte a | ubyte a =>
    cases ha : s.readFails (.buffer, a)
    · obtain ⟨m, hm⟩ := hs.buf_some ha
      simp [hm, withByte, ReadResult.ofStorage]
    · simp [withByte]
  case amsk n mask | asbyte n =>
    cases ha : s.readFails (.aux, n.byte)
    · obtain ⟨m, hm⟩ := hs.aux_some (x := n) ha
      simp [hm, withByte, ReadResult.ofStorage]
    · simp [withByte]

/-- A meaning whose destination is not bound to its operation refuses. -/
theorem exec_of_not_wf (i : Instr) (s : State) (h : i.wf = false) : exec i s = .refused .illFormedInstr := by
  cases i with
  | endOp => cases h
  | _ =>
    have hb := of_decide_eq_false h
    simp only [Instr.op] at hb
    simp [exec, execUword, execSword, execSbyte, execUbyte, execPk12l, execPk12h, execAmsk, execAsbyte, extractPair,
      extractByte, extractAux, bound, hb]

/-- What going on with a byte can answer. -/
theorem withByte_next {r : ReadResult} {s t : State} {k : Byte → Host.Outcome State Fault Refusal}
    (h : withByte r s k = .next t) :
    (∃ x, r = .byte x ∧ k x = .next t) ∨ (∃ src off, r = .malformed src off ∧ t = s.abort src off) := by
  cases r with
  | byte x => exact .inl ⟨x, rfl, h⟩
  | malformed src off =>
    cases h
    exact .inr ⟨src, off, rfl, rfl⟩
  | noValue => cases h

/-- Everything a meaning can do when it answers a next state: commit, stage one field and advance, or abort. -/
theorem exec_next {i : Instr} {s t : State} (h : exec i s = .next t) :
    (i = .endOp ∧ t = s.commit) ∨
    (∃ rd, i.dest = some rd ∧ rd.opOf = i.op ∧ ((∃ v, t = (s.stage rd v).advance) ∨ ∃ src off, t = s.abort src off)) := by
  rcases hd : i.dest with _ | rd
  · cases i <;> simp only [Instr.dest, reduceCtorEq] at hd
    simp only [exec, execEnd, Host.Outcome.next.injEq] at h
    exact .inl ⟨rfl, h.symm⟩
  · by_cases hb : rd.opOf = i.op
    · refine .inr ⟨rd, rfl, hb, ?_⟩
      cases i <;> simp only [Instr.dest, Option.some.injEq, reduceCtorEq] at hd <;> subst hd <;>
        simp only [Instr.op] at hb <;>
        simp only [exec, execUword, execSword, execSbyte, execUbyte, execPk12l, execPk12h, execAmsk, execAsbyte,
          extractPair, extractByte, extractAux, bound, hb, if_true] at h
      case uword | sword | pk12l | pk12h =>
        obtain ⟨m, -, h⟩ | ⟨src, off, -, e⟩ := withByte_next h
        · obtain ⟨l, -, h⟩ | ⟨src, off, -, e⟩ := withByte_next h
          · exact .inl ⟨_, (Host.Outcome.next.inj h).symm⟩
          · exact .inr ⟨src, off, e⟩
        · exact .inr ⟨src, off, e⟩
      all_goals
        obtain ⟨m, -, h⟩ | ⟨src, off, -, e⟩ := withByte_next h
        · exact .inl ⟨_, (Host.Outcome.next.inj h).symm⟩
        · exact .inr ⟨src, off, e⟩
    · have : i.wf = false := by simp [Instr.wf, hd, hb]
      rw [exec_of_not_wf i s this] at h
      cases h

end Sys2Proof.Machine
end

