-- ==== Sys2Proof/Laws/Program.lean ====
section
/-! SUPPORT. What a well-formed program is made of, read off the check it carries (R70). -/

namespace Sys2Proof

/-- A program has 27 words. -/
@[simp] theorem Program.words_length (p : Program) : p.words.length = 27 := by
  have h := p.ok
  simp only [programOk, Bool.and_eq_true, has27Words, Config.nField] at h
  simpa using h.1.1.1

/-- Every word of a program is valid. -/
theorem Program.decode_isSome (p : Program) {w : Word} (hw : w ∈ p.words) : (decode w).isSome = true := by
  have h := p.ok
  simp only [programOk, Bool.and_eq_true, allWordsValid, List.all_eq_true] at h
  exact h.1.1.2 w hw

/-- `PROG[26]` is `END`. -/
theorem Program.decode_last (p : Program) : (p.words[26]?).bind decode = some .endOp := by
  have h := p.ok
  simp only [programOk, Bool.and_eq_true, endOnlyLast, Config.nField, decide_eq_true_eq] at h
  exact h.1.2.1

/-- No word before `PROG[26]` is `END`. -/
theorem Program.decode_ne_end (p : Program) {k : Nat} (hk : k < 26) : (p.words[k]?).bind decode ≠ some .endOp := by
  have h := p.ok
  simp only [programOk, Bool.and_eq_true, endOnlyLast, Config.nField, decide_eq_true_eq, List.all_eq_true] at h
  have hl : k < p.words.length := by simp; omega
  have hm : p.words[k] ∈ p.words.take 26 := List.mem_take_iff_getElem.mpr ⟨k, by simp; omega, rfl⟩
  simpa [List.getElem?_eq_getElem hl] using h.1.2.2 _ hm

/-- A valid word decodes to a well-formed micro-operation. -/
theorem wf_of_decode {w : Word} {i : Instr} (h : decode w = some i) : i.wf = true := by
  have key : ∀ (op : Op) (rd : BitVec 5) (k : Field → Except Reject Instr) (i : Instr),
      withDest op rd k = .ok i → ∃ f, f.opOf = op ∧ k f = .ok i := by
    intro op rd k i hk
    simp only [withDest] at hk
    split at hk
    · cases hk
    next f hf =>
      split at hk
      next hb => exact ⟨f, hb, hk⟩
      · cases hk
  have hz : ∀ (b : Byte) (k : Except Reject Instr) (i : Instr), withZeroB b k = .ok i → k = .ok i := by
    intro b k i hk
    simp only [withZeroB] at hk
    split at hk
    · exact hk
    · cases hk
  have hx : ∀ (a : Byte) (k : AuxReg → Except Reject Instr) (i : Instr), withAux a k = .ok i → ∃ x, k x = .ok i := by
    intro a k i hk
    simp only [withAux] at hk
    split at hk
    · cases hk
    next x _ => exact ⟨x, hk⟩
  have hok : decodeWord w = .ok i := by
    simp only [decode] at h
    split at h
    next j hj => cases h; exact hj
    · cases h
  simp only [decodeWord] at hok
  split at hok
  · cases hok
  · split at hok
    case h_9 =>
      split at hok
      · cases hok; rfl
      · cases hok
    case h_10 => cases hok
    all_goals
      obtain ⟨f, hf, hk⟩ := key _ _ _ _ hok
      first
        | (cases hk; exact decide_eq_true hf)
        | (have hk := hz _ _ _ hk; cases hk; exact decide_eq_true hf)
        | (obtain ⟨x, hk⟩ := hx _ _ _ hk; cases hk; exact decide_eq_true hf)
        | (obtain ⟨x, hk⟩ := hx _ _ _ (hz _ _ _ hk); cases hk; exact decide_eq_true hf)

/-- Word `k` of a program, for `k` below 26, is a well-formed extraction. -/
theorem Program.extraction_at (p : Program) {k : Nat} (hk : k < 26) :
    ∃ w i rd, p.words[k]? = some w ∧ decode w = some i ∧ i.dest = some rd ∧ rd.opOf = i.op := by
  have hl : k < p.words.length := by simp; omega
  obtain ⟨i, hi⟩ := Option.isSome_iff_exists.mp (p.decode_isSome (List.getElem_mem hl))
  have hw : p.words[k]? = some p.words[k] := List.getElem?_eq_getElem hl
  have hne : i ≠ .endOp := fun e => p.decode_ne_end hk (by rw [hw]; simpa [e] using hi)
  have hwf := wf_of_decode hi
  rcases hd : i.dest with _ | rd
  · cases i <;> simp_all [Instr.dest]
  · refine ⟨_, i, rd, hw, hi, hd, ?_⟩
    simpa [Instr.wf, hd] using hwf

/-- The destinations of a list of words whose words are all extractions, one by one. -/
theorem destsOf_getElem? (ws : List Word) (h : ∀ w ∈ ws, ((decode w).bind Instr.dest).isSome = true) (k : Nat) :
    (destsOf ws)[k]? = (ws[k]?).bind fun w => (decode w).bind Instr.dest := by
  induction ws generalizing k with
  | nil => simp [destsOf]
  | cons w ws ih =>
    obtain ⟨f, hf⟩ := Option.isSome_iff_exists.mp (h w (by simp))
    have e : destsOf (w :: ws) = f :: destsOf ws := by simp [destsOf, hf]
    rw [e]
    cases k with
    | zero => simp [hf]
    | succ k => simpa using ih (fun v hv => h v (by simp [hv])) k

/-- The words of a program before `END` all have a destination. -/
theorem Program.take_dest (p : Program) : ∀ w ∈ p.words.take 26, ((decode w).bind Instr.dest).isSome = true := by
  intro w hw
  obtain ⟨k, hk, e⟩ := List.mem_take_iff_getElem.mp hw
  have hk' : k < 26 := by omega
  obtain ⟨v, i, rd, hv, hi, hd, -⟩ := p.extraction_at hk'
  have : v = w := by
    rw [List.getElem?_eq_getElem (by simp; omega)] at hv
    rw [← e]
    exact (Option.some.inj hv).symm
  subst this
  simp [hi, hd]

/-- The destinations of a program are those of its first 26 words. -/
theorem Program.dests_eq_take (p : Program) : p.dests = destsOf (p.words.take 26) := by
  have hl : 26 < p.words.length := by simp
  have hsplit : p.words = p.words.take 26 ++ [p.words[26]] := by
    have := List.take_append_drop 26 p.words
    rw [List.drop_eq_getElem_cons hl, List.drop_of_length_le (by simp)] at this
    exact this.symm
  have hend := p.decode_last
  rw [List.getElem?_eq_getElem hl] at hend
  simp only [Option.bind_some] at hend
  have : p.dests = destsOf (p.words.take 26 ++ [p.words[26]]) := by rw [← hsplit]; rfl
  rw [this, destsOf, List.filterMap_append]
  simp [destsOf, hend, Instr.dest]

/-- The destination of word `k` of a program, for `k` below 26, is entry `k` of its destinations. -/
theorem Program.dests_getElem? (p : Program) {k : Nat} (hk : k < 26) :
    p.dests[k]? = (p.words[k]?).bind fun w => (decode w).bind Instr.dest := by
  rw [p.dests_eq_take, destsOf_getElem? _ p.take_dest, List.getElem?_take_of_lt hk]

/-- The destinations of a program are pairwise distinct. -/
theorem Program.dests_nodup (p : Program) : p.dests.Nodup := by
  have h := p.ok
  simp only [programOk, Bool.and_eq_true, destsDistinct, Config.nField, decide_eq_true_eq] at h
  rw [p.dests_eq_take]
  exact h.2

/-- A program has 26 destinations. -/
theorem Program.dests_length (p : Program) : p.dests.length = 26 := by
  have hsome : ∀ k, k < 26 → (p.dests[k]?).isSome = true := by
    intro k hk
    obtain ⟨w, i, rd, hw, hi, hd, -⟩ := p.extraction_at hk
    simp [p.dests_getElem? hk, hw, hi, hd]
  have h1 : 25 < p.dests.length := by
    have := hsome 25 (by omega)
    simpa using this
  have h2 : p.dests.length ≤ 26 := by
    rw [p.dests_eq_take, destsOf]
    exact Nat.le_trans (List.length_filterMap_le _ _) (by simp)
  omega

/-- Every field is the destination of some word of a program. -/
theorem Program.mem_dests (p : Program) (f : Field) : f ∈ p.dests := by
  have hsub : p.dests.Subperm Field.all :=
    List.subperm_of_subset p.dests_nodup fun g _ => Field.mem_all g
  have hperm : p.dests.Perm Field.all := hsub.perm_of_length_le (by rw [p.dests_length]; decide)
  exact hperm.mem_iff.mpr (Field.mem_all f)

end Sys2Proof
end

