-- ==== Sys2Proof/Laws/PerInstr.lean ====
section
/-! SUPPORT. Facts about every micro-operation as syntax, one lemma per constructor. -/

namespace Sys2Proof.Laws.TableBits

open Sys2Proof

/-- The word of a well-formed micro-operation has the bits its row of the opcode table fixes (R74). -/
def Statement (i : Instr) : Prop := i.wf = true → encode i &&& i.op.rowMask = i.op.rowMatch

/-- A word of format `M` against a mask given by its parts. -/
theorem wordM_and (op op' : BitVec 4) (rd rd' : BitVec 5) (z : BitVec 7) (a a' b b' : Byte) :
    wordM op rd a b &&& (op' ++ rd' ++ z ++ a' ++ b') = wordM (op &&& op') (rd &&& rd') (a &&& a') (b &&& b') := by
  ext i hi
  simp [wordM]
  grind

/-- What a word of format `M` leaves under a mask, part by part. -/
theorem wordM_masked {op op' : BitVec 4} {rd rd' : BitVec 5} {z : BitVec 7} {a a' b b' : Byte} {mask row : Word}
    (hm : mask = op' ++ rd' ++ z ++ a' ++ b')
    (h : wordM (op &&& op') (rd &&& rd') (a &&& a') (b &&& b') = row) : wordM op rd a b &&& mask = row := by
  rw [hm, wordM_and, h]

theorem uword (rd : Field) (a b : Byte) : Statement (.uword rd a b) := fun _ =>
  wordM_masked (op' := 0xF) (rd' := 0) (z := 0x7F) (a' := 0) (b' := 0) rfl (by simp; rfl)

theorem sword (rd : Field) (a b : Byte) : Statement (.sword rd a b) := fun _ =>
  wordM_masked (op' := 0xF) (rd' := 0) (z := 0x7F) (a' := 0) (b' := 0) rfl (by simp; rfl)

theorem sbyte (rd : Field) (a : Byte) : Statement (.sbyte rd a) := fun _ =>
  wordM_masked (op' := 0xF) (rd' := 0) (z := 0x7F) (a' := 0) (b' := 0xFF) rfl (by simp; rfl)

theorem ubyte (rd : Field) (a : Byte) : Statement (.ubyte rd a) := fun _ =>
  wordM_masked (op' := 0xF) (rd' := 0) (z := 0x7F) (a' := 0) (b' := 0xFF) rfl (by simp; rfl)

theorem pk12l (rd : Field) (a b : Byte) : Statement (.pk12l rd a b) := fun h => by
  have hb : rd.opOf = .pk12l := of_decide_eq_true h
  cases rd <;> cases hb
  exact wordM_masked (op' := 0xF) (rd' := 0x1F) (z := 0x7F) (a' := 0) (b' := 0) rfl
    (by simp; rfl)

theorem pk12h (rd : Field) (a b : Byte) : Statement (.pk12h rd a b) := fun h => by
  have hb : rd.opOf = .pk12h := of_decide_eq_true h
  cases rd <;> cases hb
  exact wordM_masked (op' := 0xF) (rd' := 0x1F) (z := 0x7F) (a' := 0) (b' := 0) rfl
    (by simp; rfl)

theorem amsk (rd : Field) (n : AuxReg) (mask : Byte) : Statement (.amsk rd n mask) := fun _ =>
  wordM_masked (op' := 0xF) (rd' := 0) (z := 0x7F) (a' := 0xFC) (b' := 0) rfl
    (by cases n <;> (simp; rfl))

theorem asbyte (rd : Field) (n : AuxReg) : Statement (.asbyte rd n) := fun h => by
  have hb : rd.opOf = .asbyte := of_decide_eq_true h
  cases rd <;> cases hb
  exact wordM_masked (op' := 0xF) (rd' := 0x1F) (z := 0x7F) (a' := 0xFC) (b' := 0xFF) rfl (by cases n <;> rfl)

theorem endOp : Statement .endOp := fun _ => rfl

end Sys2Proof.Laws.TableBits
end

