-- ==== Sys2Proof/Laws/Step.lean ====
section
/-! SUPPORT. What a step can do, said once: a host transaction, or the sequencer's meaning. -/

namespace Sys2Proof.Machine

open Sys2Proof

/-- A step whose turn is the host's is the transaction. -/
theorem step_host {s : State} {u : HostTxn} {rest : List Turn} (h : s.agenda = .host u :: rest) :
    step s = transact u (s.afterTurn rest) := by
  simp [step, h, State.takeTurn, State.afterTurn]

/-- A step whose turn is not the host's is the sequencer's. -/
theorem step_sequencer {s : State} (h : ∀ u rest, s.agenda ≠ .host u :: rest) :
    step s = sequencerStep (s.afterTurn s.agenda.tail) := by
  unfold step
  split
  next u rest e => exact absurd e (h u rest)
  all_goals rfl

/-- Fetching does not depend on the host's side of the state. -/
@[simp] theorem fetchInstr_afterTurn (s : State) (rest : List Turn) : fetchInstr (s.afterTurn rest) = fetchInstr s := rfl

/-- Everything a step can be. -/
theorem step_next {s t : State} (h : step s = .next t) :
    (∃ u rest, s.agenda = .host u :: rest ∧ transact u (s.afterTurn rest) = .next t) ∨
    ((∀ u rest, s.agenda ≠ .host u :: rest) ∧ s.busy = true ∧
      ∃ i, fetchInstr s = some i ∧ exec i (s.afterTurn s.agenda.tail) = .next t) := by
  by_cases hh : ∃ u rest, s.agenda = .host u :: rest
  · obtain ⟨u, rest, e⟩ := hh
    rw [step_host e] at h
    exact .inl ⟨u, rest, e, h⟩
  · have hn : ∀ u rest, s.agenda ≠ .host u :: rest := fun u rest e => hh ⟨u, rest, e⟩
    rw [step_sequencer hn, sequencerStep] at h
    split at h
    next hb =>
      rw [fetchInstr_afterTurn] at h
      split at h
      next i hi => exact .inr ⟨hn, hb, i, hi, h⟩
      · cases h
    · cases h

/-- A transaction that needs `BUSY = 0`. -/
theorem whenIdle_next {s t : State} {k : Host.Outcome State Fault Refusal} (h : whenIdle s k = .next t) :
    s.busy = false ∧ k = .next t := by
  unfold whenIdle at h
  split at h
  · cases h
  next hb => exact ⟨by simpa using hb, h⟩

/-- A transaction that needs `VALID = 1`. -/
theorem whenLoaded_next {s t : State} {k : Host.Outcome State Fault Refusal} (h : whenLoaded s k = .next t) :
    s.valid = true ∧ k = .next t := by
  unfold whenLoaded at h
  split at h
  next hv => exact ⟨hv, h⟩
  · cases h

/-- Everything a transaction can do when it is accepted. -/
theorem transact_next {u : HostTxn} {s t : State} (h : transact u s = .next t) :
    match u with
    | .reset => t = { State.reset with prog := s.prog, agenda := s.agenda }
    | .fill bytes => s.busy = false ∧ bytes.length ≤ 256 ∧
        t = { s with buf := Memory.fill bytes, blen := BitVec.ofNat 9 bytes.length }
    | .setAux b0 b1 b2 => s.busy = false ∧ t = { s with aux := ⟨some b0, some b1, some b2⟩, auxv := true }
    | .transportFail sel => s.busy = false ∧ t = { s.invalidate sel with err := .transportFailure, errinfo := 0 }
    | .start => s.busy = false ∧ t = s.startCycle
    | .readStatus => t = s.answering (.status (statusWord s))
    | .readErrInfo => t = s.answering (.errInfo s.errinfo)
    | .readField n => s.valid = true ∧ ∃ f v, Field.ofIndex n = some f ∧ s.record.get f = some v ∧
        t = s.answering (.rdata (rdata f v))
    | .setTFine v => s.valid = true ∧ t = { s with tFine := some v, tfv := true }
    | .readTFine => s.valid = true ∧ s.tfv = true ∧ ∃ v, s.tFine = some v ∧ t = s.answering (.tFine v) := by
  cases u with
  | reset => exact (Host.Outcome.next.inj h).symm
  | fill bytes =>
    obtain ⟨hb, h⟩ := whenIdle_next h
    split at h
    next hl => exact ⟨hb, hl, (Host.Outcome.next.inj h).symm⟩
    · cases h
  | setAux b0 b1 b2 =>
    obtain ⟨hb, h⟩ := whenIdle_next h
    exact ⟨hb, (Host.Outcome.next.inj h).symm⟩
  | transportFail sel =>
    obtain ⟨hb, h⟩ := whenIdle_next h
    exact ⟨hb, (Host.Outcome.next.inj h).symm⟩
  | start =>
    obtain ⟨hb, h⟩ := whenIdle_next h
    exact ⟨hb, (Host.Outcome.next.inj h).symm⟩
  | readStatus => exact (Host.Outcome.next.inj h).symm
  | readErrInfo => exact (Host.Outcome.next.inj h).symm
  | readField n =>
    obtain ⟨hv, h⟩ := whenLoaded_next h
    split at h
    · cases h
    next f hf =>
      split at h
      next v hg => exact ⟨hv, f, v, hf, hg, (Host.Outcome.next.inj h).symm⟩
      · cases h
  | setTFine v =>
    obtain ⟨hv, h⟩ := whenLoaded_next h
    exact ⟨hv, (Host.Outcome.next.inj h).symm⟩
  | readTFine =>
    obtain ⟨hv, h⟩ := whenLoaded_next h
    split at h
    next ht =>
      split at h
      next v hg => exact ⟨hv, ht, v, hg, (Host.Outcome.next.inj h).symm⟩
      · cases h
    · cases h

/-! ## Runs -/

/-- No step. -/
@[simp] theorem State.runs_zero (s : State) : s.runs 0 = .next s := rfl

/-- The first step of a run. -/
theorem State.runs_eq (s : State) (n : Nat) : s.runs (n + 1) =
    match step s with
    | .next t => t.runs n
    | .fault r => .fault r
    | .refused r => .refused r := by
  have e : Sys2Proof.core.step s = step s := rfl
  simp only [State.runs, Host.Core.run, e]
  rcases step s with t | r | r <;> rfl

/-- One step, then the rest of the run. -/
theorem State.runs_succ_of_step {s t : State} (h : step s = .next t) (n : Nat) : s.runs (n + 1) = t.runs n := by
  rw [State.runs_eq, h]

/-- A run, then one step. -/
theorem State.runs_succ {s t : State} {n : Nat} (h : s.runs n = .next t) : s.runs (n + 1) = step t := by
  induction n generalizing s with
  | zero =>
    cases h
    rw [State.runs_eq]
    rcases step _ with u | r | r <;> rfl
  | succ n ih =>
    rcases hs : step s with u | r | r
    · rw [State.runs_succ_of_step hs] at h ⊢
      exact ih h
    all_goals
      rw [State.runs_eq, hs] at h
      cases h

end Sys2Proof.Machine
end

