-- ==== Sys2Proof/Tests/Slice0.lean ====
section
/-! SUPPORT. Tests. Expected values are those of 95_test_vectors.md or are worked by hand from the rule cited; then, for
every statement with hypotheses, a state and operands that meet them. -/

namespace Sys2Proof.Tests

open Sys2Proof Sys2Proof.Machine

/-! ## Helpers -/

/-- A view of the next state, if there is one. -/
def after {α : Type} (o : Host.Outcome State Fault Refusal) (view : State → α) : Option α :=
  match o with
  | .next t => some (view t)
  | .fault _ => none
  | .refused _ => none

/-- The refusal, if it is one. -/
def refusalOf (o : Host.Outcome State Fault Refusal) : Option Refusal :=
  match o with
  | .next _ => none
  | .fault _ => none
  | .refused r => some r

/-- The condition of R67 a word breaks. -/
def rejects (w : Word) : Option Reject :=
  match decodeWord w with
  | .ok _ => none
  | .error r => some r

/-- The canonical program with every offset 0, `RANGE_MASK` 0x30 and `ERROR_MASK` 0xF0: its largest offset is 0. -/
def prog0 : Program := calprog ⟨fun _ => 0, fun _ => 0, fun _ => 0⟩ 0x30 0xF0

/-- IDLE, never loaded, with the bytes given in `BUF` and the auxiliary bytes of 95 part 2.3. -/
def filled (bytes : List Byte) : State :=
  { State.built prog0 with
    buf := Memory.fill bytes, blen := BitVec.ofNat 9 bytes.length,
    aux := ⟨some 0x16, some 0x8D, some 0xF3⟩, auxv := true }

/-- RUN at index `k` with the bytes given in `BUF`: the setting of 95 parts 2.2 and 2.3. -/
def running (bytes : List Byte) (k : Nat) : State := { filled bytes with busy := true, upc := BitVec.ofNat 5 k }

/-- The meaning of the micro-operation a word stands for. -/
def runWord (w : Word) (s : State) : Host.Outcome State Fault Refusal :=
  match decode w with
  | some i => exec i s
  | none => .refused .illFormedProgram

/-- What R147 writes, and `UPC`. -/
def abortView (s : State) : ErrCode × Half × BitVec 26 × Bool × BitVec 5 := (s.err, s.errinfo, s.written, s.busy, s.upc)

/-- A record file that holds a value in every register. -/
def zeros : RegFile where
  par_t1 := some 0
  par_t2 := some 0
  par_t3 := some 0
  par_p1 := some 0
  par_p2 := some 0
  par_p3 := some 0
  par_p4 := some 0
  par_p5 := some 0
  par_p6 := some 0
  par_p7 := some 0
  par_p8 := some 0
  par_p9 := some 0
  par_p10 := some 0
  par_h1 := some 0
  par_h2 := some 0
  par_h3 := some 0
  par_h4 := some 0
  par_h5 := some 0
  par_h6 := some 0
  par_h7 := some 0
  par_gh1 := some 0
  par_gh2 := some 0
  par_gh3 := some 0
  res_heat_range := some 0
  res_heat_val := some 0
  range_sw_err := some 0

/-- IDLE and loaded, `T_FINE` set, one byte in `BUF`: a reload of `prog0` succeeds from here. -/
def loaded : State :=
  { filled [0xAB] with record := zeros, valid := true, tFine := some 0, tfv := true }

/-- RUN at `END` with every field staged. -/
def atEnd : State :=
  { filled [0xAB] with staging := zeros, written := BitVec.allOnes 26, upc := 26, busy := true }

/-- The host's turn next. -/
def State.turn (s : State) (t : HostTxn) : State := { s with agenda := [.host t] }

/-! ## WellFormed: one ill-formed term for each operation, and one program for each condition of R70 -/

theorem test_wf_refuses_uword : (Instr.uword .par_t2 2 1).wf = false := by decide
theorem test_wf_refuses_sword : (Instr.sword .par_t1 2 1).wf = false := by decide
theorem test_wf_refuses_sbyte : (Instr.sbyte .par_p10 3).wf = false := by decide
theorem test_wf_refuses_ubyte : (Instr.ubyte .par_h5 3).wf = false := by decide
theorem test_wf_refuses_pk12l : (Instr.pk12l .par_h2 25 26).wf = false := by decide
theorem test_wf_refuses_pk12h : (Instr.pk12h .par_h1 27 26).wf = false := by decide
theorem test_wf_refuses_amsk : (Instr.amsk .res_heat_val .aux0 0x30).wf = false := by decide
theorem test_wf_refuses_asbyte : (Instr.asbyte .res_heat_range .aux1).wf = false := by decide

/-- R70 condition 1: 26 words. -/
theorem test_program_length : has27Words (prog0.words.drop 1) = false := by decide
/-- R70 condition 2: the all-zero word. -/
theorem test_program_valid_words : programOk (prog0.words.set 0 0) = false := by decide
/-- R70 condition 3: an extraction where `END` must be. -/
theorem test_program_end_last : endOnlyLast (prog0.words.set 26 0x10000000) = false := by decide
/-- R70 condition 3: an `END` before the last word. -/
theorem test_program_end_only_last : endOnlyLast (prog0.words.set 3 0xF0000000) = false := by decide
/-- R70 condition 4: two words with `rd = 0`. -/
theorem test_program_destinations : destsDistinct (prog0.words.set 3 0x10000000) = false := by decide
/-- R71: an ill-formed program builds no machine. -/
theorem test_build_refuses : Program.build (prog0.words.set 3 0x10000000) = none := by decide

/-! ## Decoding (95 part 2.4) -/

theorem test_decode_uword : decode 0x10002221 = some (.uword .par_t1 34 33) := by decide
theorem test_decode_sword : decode 0x2A802423 = some (.sword .par_gh2 36 35) := by decide
theorem test_decode_sbyte : decode 0x3B002600 = some (.sbyte .par_gh3 38) := by decide
theorem test_decode_ubyte : decode 0x49001F00 = some (.ubyte .par_h6 31) := by decide
theorem test_decode_pk12l : decode 0x56801B1A = some (.pk12l .par_h1 27 26) := by decide
theorem test_decode_pk12h : decode 0x6700191A = some (.pk12h .par_h2 25 26) := by decide
theorem test_decode_amsk : decode 0x7B8002FF = some (.amsk .res_heat_range .aux2 0xFF) := by decide
theorem test_decode_asbyte : decode 0x8C000100 = some (.asbyte .res_heat_val .aux1) := by decide
theorem test_decode_end : decode 0xF0000000 = some .endOp := by decide

/-- The fields of format `M` bit by bit (R61): op 0010, rd 10101, z 0000000, a 00100100, b 00100011. -/
theorem test_decode_bits :
    decode 0b00101010100000000010010000100011 = some (.sword .par_gh2 0b00100100 0b00100011) := by decide

theorem test_reject_reserved_bits : [0xFFFFFFFF, 0x10010000].map rejects = List.replicate 2 (some .reservedBits) := by
  decide
theorem test_reject_reserved_op :
    [0x00000000, 0x90000000, 0xE0000000].map rejects = List.replicate 3 (some .reservedOp) := by decide
theorem test_reject_end_operand :
    [0xF0000001, 0xF0800000].map rejects = List.replicate 2 (some .endOperand) := by decide
theorem test_reject_no_such_field :
    [0x1D000000, 0x1F800000].map rejects = List.replicate 2 (some .noSuchField) := by decide
theorem test_reject_unbound_field :
    [0x10800201, 0x20000201, 0x5700191A, 0x66801B1A, 0x7C000030, 0x8B800100].map rejects =
      List.replicate 6 (some .unboundField) := by decide
theorem test_reject_nonzero_b :
    [0x31000301, 0x46001701, 0x8C000101].map rejects = List.replicate 3 (some .nonzeroB) := by decide
theorem test_reject_no_such_aux : [0x7B800330, 0x8C000300].map rejects = List.replicate 2 (some .noSuchAux) := by decide

theorem test_decodeTableWord : decodeTableWord 32 0x56800000 = some (.pk12l .par_h1 0 0) := by decide
theorem test_encode_uword : encode (.uword .par_p1 6 5) = 0x11800605 := by decide
theorem test_encode_amsk : encode (.amsk .range_sw_err .aux2 0xF0) = 0x7C8002F0 := by decide

/-! ## The meanings (95 parts 2.2 and 2.3) -/

theorem test_uword : after (runWord 0x10000001 (running [0x01, 0x02] 0))
    (fun t => (t.staging.par_t1, t.written, t.upc, t.busy)) = some (some 0x0102, 1, 1, true) := by decide
theorem test_uword_unsigned : after (runWord 0x10000100 (running [0x00, 0x80] 0))
    (fun t => t.staging.par_t1.map Field.par_t1.val) = some (some 32768) := by decide
theorem test_sword : after (runWord 0x20800100 (running [0x80, 0x00] 0))
    (fun t => (t.staging.par_t2, t.written)) = some (some 0x0080, 2) := by decide
theorem test_sword_negative : after (runWord 0x2A800203 (running [0, 0, 0xFF, 0x00] 0))
    (fun t => t.staging.par_gh2.map Field.par_gh2.val) = some (some (-256)) := by decide
theorem test_sbyte : after (runWord 0x3B000700 (running [0, 0, 0, 0, 0, 0, 0, 0xC0] 0))
    (fun t => (t.staging.par_gh3.map Field.par_gh3.val, t.written)) = some (some (-64), 0x0400000) := by decide
/-- `BLEN` 8 and offset 8, at `UPC` 5. -/
theorem test_sbyte_aborts : after (runWord 0x31000800 (running [0, 0, 0, 0, 0, 0, 0, 0] 5)) abortView =
    some (.malformedInput, 0x0A08, 0, false, 5) := by decide
theorem test_ubyte : after (runWord 0x46000400 (running [0, 0, 0, 0, 0xFF] 0))
    (fun t => (t.staging.par_p10.map Field.par_p10.val, t.written)) = some (some 255, 0x0001000) := by decide
theorem test_pk12l : after (runWord 0x56800201 (running [0, 0xC3, 0xAB] 0))
    (fun t => (t.staging.par_h1, t.written)) = some (some 0x0AB3, 0x0002000) := by decide
/-- Both offsets out of range: `a` is reported. -/
theorem test_uword_aborts_on_a : after (runWord 0x10000A09 (running [0, 0, 0, 0, 0, 0, 0, 0] 5)) abortView =
    some (.malformedInput, 0x0A0A, 0, false, 5) := by decide
theorem test_pk12h : after (runWord 0x67000301 (running [0, 0xC3, 0, 0xAB] 0))
    (fun t => (t.staging.par_h2, t.written)) = some (some 0x0ABC, 0x0004000) := by decide
theorem test_pk12h_aborts_on_b : after (runWord 0x67000108 (running [0, 0, 0, 0, 0, 0, 0, 0] 5)) abortView =
    some (.malformedInput, 0x0A08, 0, false, 5) := by decide
theorem test_amsk : after (runWord 0x7C8002F0 (running [] 0))
    (fun t => (t.staging.range_sw_err.map Field.range_sw_err.val, t.written)) = some (some 15, 0x2000000) := by decide
/-- `AUXV` 0, index 1, at `UPC` 23. -/
theorem test_asbyte_aborts :
    after (runWord 0x8C000100 { running [] 23 with aux := {}, auxv := false }) abortView =
    some (.malformedInput, 0x2F01, 0, false, 23) := by decide
theorem test_asbyte : after (runWord 0x8C000100 (running [] 0))
    (fun t => (t.staging.res_heat_val.map Field.res_heat_val.val, t.written)) = some (some (-115), 0x1000000) := by decide
theorem test_end : after (exec .endOp { atEnd with tfv := true })
    (fun t => (t.record, t.valid, t.tfv, t.written, t.busy, t.upc)) = some (zeros, true, false, 0, false, 26) := by decide

/-! ## Status words and the host's reads (95 parts 2.5 and 2.6) -/

theorem test_status_reset : after (step (State.turn State.reset .readStatus)) State.answer =
    some (some (.status 0x00)) := by decide
theorem test_status_running : statusWord { loaded with busy := true } = 0x0F := by decide
theorem test_status_aborted : statusWord { loaded with err := .malformedInput, aux := {}, auxv := false } = 0x1A := by
  decide
theorem test_status_transport : after (step (State.turn (filled []) (.transportFail .bufSel))) statusWord =
    some 0x24 := by decide
theorem test_read_i8 : rdata .par_h7 0x9C = 0xFF9C := by decide
theorem test_read_u8 : rdata .par_h6 0x80 = 0x0080 := by decide
theorem test_read_25 : after (step (State.turn loaded (.readField 25))) State.answer = some (some (.rdata 0)) := by decide
theorem test_read_26 : refusalOf (step (State.turn loaded (.readField 26))) = some .noSuchField := by decide
theorem test_read_unloaded : refusalOf (step (State.turn (filled []) (.readField 0))) = some .notLoaded := by decide
theorem test_start_busy : refusalOf (step (State.turn atEnd .start)) = some .busy := by decide

/-! ## The assembler (R72, R73; 95) -/

theorem test_asm_uword : assembleLine "UWORD  par_t1, 34, 0x21 ; temperature".toList = .instr (.uword .par_t1 34 33) := by
  decide
theorem test_asm_amsk : assembleLine "AMSK   range_sw_err, aux2, 0xF0".toList = .instr (.amsk .range_sw_err .aux2 0xF0) := by
  decide
theorem test_asm_end : assembleLine "END".toList = .instr .endOp := by decide
/-- R72: the field is not bound to the mnemonic. -/
theorem test_asm_unbound : assembleLine "UWORD par_t2, 2, 1".toList = .rejected := by decide
theorem test_asm_range : assembleLine "SBYTE par_t3, 256".toList = .rejected := by decide
/-- The spacing and the line of 95 part 3: the text of the statement's line is that source line. -/
theorem test_asm_text : asmText 0 1 "UWORD" ["par_t1".toList, "34".toList, "33".toList] = "UWORD par_t1, 34, 33".toList := by
  decide
theorem test_asm_loadcal : assembleLine "LOADCAL".toList = .loadcal := by decide

/-! ## The host's two questions -/

/-- A word placed by `withFetchWord` is run by the very next step: the buffer is empty after reset, so it aborts. -/
theorem test_withFetchWord : after (step (State.reset.withFetchWord 32 0x10000100)) (fun t => (t.err, t.errinfo)) =
    some (.malformedInput, 0x0001) := by decide
theorem test_withFetchWord_end : after (step (State.reset.withFetchWord 32 0xF0000000)) State.valid = some true := by
  decide
/-- No program holds an invalid word (R71). -/
theorem test_withFetchWord_invalid : refusalOf (step (State.reset.withFetchWord 32 0x20000000)) =
    some .illFormedProgram := by decide

/-! ## States that meet the invariant -/

/-- RUN at the first word of a cycle. -/
def started : State := (filled [0xAB]).startCycle

/-- IDLE, nothing loaded, the buffer one byte short of what `prog0` reads. -/
def short : State := filled []

/-- A loaded IDLE state without auxiliary bytes. -/
def noAux : State := { loaded with aux := {}, auxv := false }

/-- Every value of a file of zeros is in its range. -/
theorem zeros_inRange : zeros.inRange := by
  intro f v h
  cases f <;> (cases h; decide)

/-- An empty file is in range. -/
theorem empty_inRange : RegFile.inRange {} := by
  intro f v h
  rw [RegFile.get_empty] at h
  cases h

/-- A buffer of one byte holds offset 0 and no other. -/
theorem one_held (x : Byte) (k : Nat) : ((Memory.fill [x]).read k).isSome = decide (k < 1) := by
  cases k <;> simp

theorem loaded_inv : loaded.Inv where
  buf_wf := by decide
  buf_held := one_held _
  blen_le := by decide
  aux_held := fun x => by cases x <;> rfl
  record_held := fun f => by cases f <;> rfl
  record_range := zeros_inRange
  staging_held := fun f => by cases f <;> rfl
  staging_range := empty_inRange
  tfv_held := fun _ => ⟨rfl, rfl⟩
  upc_le := by decide
  run_staged := fun h => by cases h
  idle_unstaged := fun _ => rfl
  errinfo_fields := by decide
  errinfo_zero := fun _ => rfl
  run_noError := fun h => by cases h

theorem noAux_inv : noAux.Inv :=
  { loaded_inv with aux_held := fun x => by cases x <;> rfl }

theorem short_inv : short.Inv where
  buf_wf := by decide
  buf_held := fun _ => rfl
  blen_le := by decide
  aux_held := fun x => by cases x <;> rfl
  record_held := fun f => by cases f <;> rfl
  record_range := empty_inRange
  staging_held := fun f => by cases f <;> rfl
  staging_range := empty_inRange
  tfv_held := fun h => by cases h
  upc_le := by decide
  run_staged := fun h => by cases h
  idle_unstaged := fun _ => rfl
  errinfo_fields := by decide
  errinfo_zero := fun _ => rfl
  run_noError := fun h => by cases h

theorem started_inv : started.Inv where
  buf_wf := by decide
  buf_held := one_held _
  blen_le := by decide
  aux_held := fun x => by cases x <;> rfl
  record_held := fun f => by cases f <;> rfl
  record_range := empty_inRange
  staging_held := fun f => by cases f <;> rfl
  staging_range := empty_inRange
  tfv_held := fun h => by cases h
  upc_le := by decide
  run_staged := fun _ f => by cases f <;> decide
  idle_unstaged := fun h => by cases h
  errinfo_fields := by decide
  errinfo_zero := fun _ => rfl
  run_noError := fun _ => rfl

/-- The invariant says nothing of whose turn it is. -/
theorem turn_inv {s : State} (h : s.Inv) (ts : List Turn) : State.Inv { s with agenda := ts } :=
  ⟨h.1, h.2, h.3, h.4, h.5, h.6, h.7, h.8, h.9, h.10, h.11, h.12, h.13, h.14, h.15⟩

/-- Every field is among the destinations of the 26 words before `END`. -/
theorem prog0_dests : prog0.dests.take 26 = Field.all := by decide

theorem atEnd_inv : atEnd.Inv where
  buf_wf := by decide
  buf_held := one_held _
  blen_le := by decide
  aux_held := fun x => by cases x <;> rfl
  record_held := fun f => by cases f <;> rfl
  record_range := empty_inRange
  staging_held := fun f => by cases f <;> rfl
  staging_range := zeros_inRange
  tfv_held := fun h => by cases h
  upc_le := by decide
  run_staged := fun _ f => by
    have h : f ∈ prog0.dests.take 26 := by rw [prog0_dests]; exact Field.mem_all f
    exact iff_of_true (by cases f <;> decide) h
  idle_unstaged := fun h => by cases h
  errinfo_fields := by decide
  errinfo_zero := fun _ => rfl
  run_noError := fun _ => rfl

/-- The agenda of a state without turns is not the host's. -/
theorem no_host (s : State) (h : s.agenda = []) : ∀ t rest, s.agenda ≠ .host t :: rest := by
  intro t rest e
  rw [h] at e
  cases e

/-- The largest offset of `prog0` is 0. -/
theorem prog0_maxOffset : prog0.maxOffset = 0 := rfl

theorem loaded_ready : loaded.ready := ⟨by rw [show loaded.prog.maxOffset = 0 from prog0_maxOffset]; decide, rfl⟩

theorem short_not_ready : ¬ short.ready := by
  rintro ⟨h, -⟩
  rw [show short.prog.maxOffset = 0 from prog0_maxOffset] at h
  revert h
  decide

theorem noAux_not_ready : ¬ noAux.ready := by
  rintro ⟨-, h⟩
  cases h

/-! ## Witnesses: a state and operands that meet the hypotheses of each statement, clause by clause -/

/-- An assembled line; the texts of 0 and 255; and a field bound to its mnemonic, and one that is not. -/
theorem witness_AssembledLineIsWellFormed :
    (∃ line i, assembleLine line = .instr i) ∧ "0".toList ∈ numberTexts 0 ∧ "255".toList ∈ numberTexts 255 ∧
    "0xFF".toList ∈ numberTexts 255 ∧ "0xff".toList ∈ numberTexts 255 ∧
    asmForm (.uword .par_t1 0 255) = .instr (.uword .par_t1 0 255) ∧ asmForm (.uword .par_t2 0 255) = .rejected :=
  ⟨⟨_, _, test_asm_uword⟩, by decide, by decide, by decide, by decide, by decide, by decide⟩

/-- Both sides of the equivalence: a list that is built, and one that is not. -/
theorem witness_BuildAcceptsExactlyWellFormedPrograms :
    (∃ p, Program.build prog0.words = some p) ∧ Program.build [] = none := ⟨⟨prog0, by decide⟩, by decide⟩

/-- Two indices of the one word with destination 25. -/
theorem witness_EveryFieldHasExactlyOneWord :
    ((prog0.words[25]?).bind decode).bind Instr.dest = some .range_sw_err := by decide

/-- Both signs at width 1, and the two ends of the 8-bit range. -/
theorem witness_SignExtendContract :
    (1#1).getLsbD (1 - 1) = true ∧ (0#1).getLsbD (1 - 1) = false ∧ -(2 : Int) ^ (8 - 1) ≤ -128 ∧
      (127 : Int) ≤ 2 ^ (8 - 1) - 1 := by decide

theorem witness_AssembleWordContract :
    assembleWord 0x80 0x00 true = -32768 ∧ assembleWord 0x7F 0xFF true = 32767 := by decide

theorem witness_NibbleAndMaskLaws : pack12 0xFF 15 = 4095 ∧ pack12 0x00 0 = 0 := by decide

theorem witness_RecordRegistersAreDisjoint : Field.par_t2 ≠ Field.par_t1 := by decide

/-- Offsets at the last byte, `a` out of range, and only `b` out of range, for a buffer of two bytes. -/
theorem witness_UwordStagesUnsignedWord :
    let s := running [1, 2] 0
    Field.par_p1 ∈ [Field.par_t1, .par_p1] ∧
    ((1 : Byte).toNat < s.blen.toNat ∧ s.buf.read (1 : Byte).toNat = some 2) ∧ s.blen.toNat ≤ (2 : Byte).toNat := by
  decide

theorem witness_SwordStagesSignedWord :
    let s := running [1, 2] 0
    Field.par_gh2 ∈ [Field.par_t2, .par_p2, .par_p4, .par_p5, .par_p8, .par_p9, .par_gh2] ∧
    ((1 : Byte).toNat < s.blen.toNat ∧ s.buf.read (1 : Byte).toNat = some 2) ∧ s.blen.toNat ≤ (2 : Byte).toNat := by
  decide

theorem witness_SbyteStagesSignedByte :
    let s := running [0x80] 0
    Field.par_gh3 ∈ [Field.par_t3, .par_p3, .par_p6, .par_p7, .par_h3, .par_h4, .par_h5, .par_h7, .par_gh1, .par_gh3] ∧
    ((0 : Byte).toNat < s.blen.toNat ∧ s.buf.read (0 : Byte).toNat = some 0x80) ∧ s.blen.toNat ≤ (1 : Byte).toNat := by
  decide

theorem witness_UbyteStagesUnsignedByte :
    let s := running [0x80] 0
    Field.par_h6 ∈ [Field.par_p10, .par_h6] ∧
    ((0 : Byte).toNat < s.blen.toNat ∧ s.buf.read (0 : Byte).toNat = some 0x80) ∧ s.blen.toNat ≤ (1 : Byte).toNat := by
  decide

theorem witness_Pk12lStagesLowNibblePack :
    let s := running [0xAB, 0xC3] 13
    ((0 : Byte).toNat < s.blen.toNat ∧ s.buf.read (0 : Byte).toNat = some 0xAB) ∧
    ((1 : Byte).toNat < s.blen.toNat ∧ s.buf.read (1 : Byte).toNat = some 0xC3) ∧ s.blen.toNat ≤ (2 : Byte).toNat := by
  decide

theorem witness_Pk12hStagesHighNibblePack :
    let s := running [0xAB, 0xC3] 14
    ((0 : Byte).toNat < s.blen.toNat ∧ s.buf.read (0 : Byte).toNat = some 0xAB) ∧
    ((1 : Byte).toNat < s.blen.toNat ∧ s.buf.read (1 : Byte).toNat = some 0xC3) ∧ s.blen.toNat ≤ (2 : Byte).toNat := by
  decide

theorem witness_AmskStagesMaskedNibble :
    Field.range_sw_err ∈ [Field.res_heat_range, .range_sw_err] ∧
    ((running [] 23).auxv = true ∧ (running [] 23).aux.get .aux2 = some 0xF3) ∧ noAux.auxv = false := by decide

theorem witness_AsbyteStagesSignedByte :
    ((running [] 24).auxv = true ∧ (running [] 24).aux.get .aux1 = some 0x8D) ∧ noAux.auxv = false := by decide

theorem witness_EndCommitsTheStagedRecord :
    atEnd.Inv ∧ atEnd.busy = true ∧ fetchInstr atEnd = some .endOp ∧ started.Inv ∧ started.busy = true :=
  ⟨atEnd_inv, rfl, by decide, started_inv, rfl⟩

theorem witness_UnboundDestinationIsRefused : ∃ i : Instr, i.wf = false := ⟨_, test_wf_refuses_uword⟩

/-- An extraction that stages, and one that aborts. -/
theorem witness_ExtractionFrame :
    (∃ t, exec (.uword .par_t1 0 0) started = .next t ∧ t.busy = true) ∧
    (∃ t, exec (.uword .par_t1 0 1) started = .next t ∧ t.busy = false) := ⟨⟨_, rfl, rfl⟩, ⟨_, rfl, rfl⟩⟩

/-- The read of `b` fails, and both reads fail and `a` is the first. -/
theorem witness_FirstFailingReadAborts :
    started.Held ∧ Field.par_t1.opOf = (Instr.uword .par_t1 0 1).op ∧
    (Instr.uword .par_t1 0 1).reads.find? started.readFails = some (.buffer, 1) ∧
    (Instr.uword .par_t1 2 1).reads.find? started.readFails = some (.buffer, 2) ∧
    (Instr.asbyte .res_heat_val .aux1).reads.find? noAux.readFails = some (.aux, 1) := by
  refine ⟨⟨fun k hk => ?_, fun _ x => ?_⟩, rfl, by decide, by decide, by decide⟩
  · rw [started_inv.buf_held k]
    exact decide_eq_true hk
  · cases x <;> rfl

theorem witness_StepRunsTheDecodedWord :
    started.busy = true ∧ (∀ t rest, started.agenda ≠ .host t :: rest) ∧
    started.prog.words[started.upc.toNat]? = some 0x10000000 ∧ decode 0x10000000 = some (.uword .par_t1 0 0) :=
  ⟨rfl, no_host _ rfl, by decide, by decide⟩

/-- IDLE, and RUN at both ends of the program. -/
theorem witness_SequencerIsEnabledExactlyWhenBusy :
    (∀ t rest, loaded.agenda ≠ .host t :: rest) ∧ loaded.busy = false ∧
    started.busy = true ∧ started.upc.toNat = 0 ∧ atEnd.busy = true ∧ atEnd.upc.toNat ≤ 26 :=
  ⟨no_host _ rfl, rfl, rfl, rfl, rfl, by decide⟩

theorem witness_ResetGivesTheResetValues :
    (State.turn atEnd .reset).agenda = [.host .reset] ∧ (State.turn loaded .reset).agenda = .host .reset :: [] :=
  ⟨rfl, rfl⟩

/-- 256 bytes in IDLE; 257 bytes; and RUN. -/
theorem witness_HostFillDeliversTheBytes :
    ((State.turn loaded (.fill (List.replicate 256 7))).busy = false ∧ (List.replicate 256 (7 : Byte)).length ≤ 256) ∧
    256 < (List.replicate 257 (7 : Byte)).length ∧ (State.turn atEnd (.fill [])).busy = true :=
  ⟨⟨rfl, Nat.le_of_eq List.length_replicate⟩, by rw [List.length_replicate]; omega, rfl⟩

theorem witness_HostSetAuxSuppliesThreeBytes :
    (State.turn loaded (.setAux 1 2 3)).busy = false ∧ (State.turn started (.setAux 1 2 3)).busy = true := ⟨rfl, rfl⟩

theorem witness_TransportFailureInvalidatesItsInput :
    (State.turn loaded (.transportFail .bufSel)).busy = false ∧ (State.turn loaded (.transportFail .auxSel)).busy = false ∧
      (State.turn started (.transportFail .auxSel)).busy = true := ⟨rfl, rfl, rfl⟩

theorem witness_HostStartBeginsACycle :
    (State.turn loaded .start).busy = false ∧ (State.turn started .start).busy = true := ⟨rfl, rfl⟩

theorem witness_StatusReadsReturnTheFlags :
    (State.turn loaded .readStatus).agenda = [.host .readStatus] ∧
      (State.turn loaded .readErrInfo).agenda = [.host .readErrInfo] := ⟨rfl, rfl⟩

/-- The first and the last field of a loaded record; an unloaded one; and index 26. -/
theorem witness_HostReadReturnsTheCoefficient :
    (loaded.valid = true ∧ Field.par_t1.index = 0 ∧ loaded.record.get .par_t1 = some 0) ∧
    (Field.range_sw_err.index = 25 ∧ loaded.record.get .range_sw_err = some 0) ∧
    short.valid = false ∧ (State.turn loaded (.readField 26)).agenda = [.host (.readField 26)] :=
  ⟨⟨rfl, rfl, rfl⟩, ⟨rfl, rfl⟩, rfl, rfl⟩

theorem witness_HostSetTFineStoresTheBits :
    (State.turn loaded (.setTFine 0)).valid = true ∧ (State.turn short (.setTFine 0)).valid = false := ⟨rfl, rfl⟩

theorem witness_HostReadTFineReturnsTheBits :
    (loaded.valid = true ∧ loaded.tfv = true ∧ loaded.tFine = some 0) ∧ short.valid = false ∧
      ({ loaded with tfv := false } : State).tfv = false := ⟨⟨rfl, rfl, rfl⟩, rfl, rfl⟩

/-- A transaction that is allowed, and one that is not. -/
theorem witness_TransactionAcceptedExactlyWhenAllowed :
    let s₁ := State.turn loaded (.readField 25)
    let s₂ := State.turn short (.readField 25)
    (s₁.Inv ∧ s₁.agenda = [.host (.readField 25)] ∧ HostTxn.allowed s₁ (.readField 25)) ∧
    (s₂.Inv ∧ s₂.agenda = [.host (.readField 25)] ∧ ¬ HostTxn.allowed s₂ (.readField 25)) :=
  ⟨⟨turn_inv loaded_inv _, rfl, rfl, by decide⟩, turn_inv short_inv _, rfl, fun h => by cases h.1⟩

theorem witness_ReadTransactionsChangeNothing :
    (HostTxn.readField 0).isRead = true ∧ ∃ u, step (State.turn loaded (.readField 0)) = .next u := ⟨rfl, _, rfl⟩

/-- Two states that differ in what is hidden. -/
theorem witness_HiddenStateGivesNoAnswer :
    let s₁ := State.turn loaded .readStatus
    let s₂ := { s₁ with buf := [], blen := 0, upc := 7 }
    s₁ ≠ s₂ ∧ s₁.agenda = [.host .readStatus] ∧ s₂.agenda = [.host .readStatus] ∧ s₁.record = s₂.record ∧
    s₁.valid = s₂.valid ∧ s₁.tFine = s₂.tFine ∧ s₁.tfv = s₂.tfv ∧ s₁.auxv = s₂.auxv ∧ s₁.busy = s₂.busy ∧
    s₁.err = s₂.err ∧ s₁.errinfo = s₂.errinfo ∧ ∃ t, step s₁ = .next t :=
  ⟨fun h => by have := congrArg State.upc h; revert this; decide, rfl, rfl, rfl, rfl, rfl, rfl, rfl, rfl, rfl, rfl, _, rfl⟩

/-- A step of the sequencer that stages, one that commits, and a step of the host. -/
theorem witness_StepKeepsInvariant :
    (started.Inv ∧ ∃ t, step started = .next t) ∧ (atEnd.Inv ∧ ∃ t, step atEnd = .next t) ∧
      (State.turn loaded .start).Inv ∧ ∃ t, step (State.turn loaded .start) = .next t :=
  ⟨⟨started_inv, _, rfl⟩, ⟨atEnd_inv, _, rfl⟩, turn_inv loaded_inv _, _, rfl⟩

theorem witness_ReachableStatesNeverFault : started.Inv ∧ atEnd.Inv ∧ loaded.Inv ∧ short.Inv ∧ noAux.Inv :=
  ⟨started_inv, atEnd_inv, loaded_inv, short_inv, noAux_inv⟩

theorem witness_ProgramIsReadOnly : ∃ t, step started = .next t := ⟨_, rfl⟩

/-- Each of the three cases: nothing changes, commit, reset. -/
theorem witness_RecordChangesOnlyByCommitOrReset :
    (∃ t, step started = .next t ∧ t.valid = started.valid) ∧ (∃ t, step atEnd = .next t ∧ t.valid = true) ∧
      ∃ t, step (State.turn loaded .reset) = .next t ∧ t.valid = false := ⟨⟨_, rfl, rfl⟩, ⟨_, rfl, rfl⟩, _, rfl, rfl⟩

theorem witness_InputsAreStableDuringACycle :
    started.busy = true ∧ (∀ rest, started.agenda ≠ .host .reset :: rest) ∧ ∃ t, step started = .next t :=
  ⟨rfl, fun rest => no_host _ rfl _ rest, _, rfl⟩

/-- A loaded block with `T_FINE` set, in RUN at `END` of a reload. -/
def reloadAtEnd : State := { atEnd with record := zeros, valid := true, tFine := some 0, tfv := true }

/-- A block that aborted. -/
def aborted : State := { short with err := .malformedInput }

/-- `BUSY`: set by `HostStart`; cleared by `END`, by an abort and by reset. -/
theorem witness_FlagsChangeOnlyAsTheTableSays_busy :
    (∃ t, step (State.turn loaded .start) = .next t ∧ loaded.busy = false ∧ t.busy = true) ∧
    (∃ t, step atEnd = .next t ∧ fetchInstr atEnd = some .endOp ∧ atEnd.busy = true ∧ t.busy = false) ∧
    (∃ t, step { started with buf := [], blen := 0 } = .next t ∧ t.err = .malformedInput ∧ t.busy = false) ∧
    (∃ t, step (State.turn started .reset) = .next t ∧ started.busy = true ∧ t.busy = false) :=
  ⟨⟨_, rfl, rfl, rfl⟩, ⟨_, rfl, by decide, rfl, rfl⟩, ⟨_, rfl, rfl, rfl⟩, _, rfl, rfl, rfl⟩

/-- `AUXV`: set by `HostSetAux`; cleared by `HostTransportFail(AUXSEL)` and by reset. -/
theorem witness_FlagsChangeOnlyAsTheTableSays_auxv :
    (∃ t, step (State.turn noAux (.setAux 1 2 3)) = .next t ∧ noAux.auxv = false ∧ t.auxv = true) ∧
    (∃ t, step (State.turn loaded (.transportFail .auxSel)) = .next t ∧ loaded.auxv = true ∧ t.auxv = false) ∧
    (∃ t, step (State.turn loaded .reset) = .next t ∧ t.auxv = false) :=
  ⟨⟨_, rfl, rfl, rfl⟩, ⟨_, rfl, rfl, rfl⟩, _, rfl, rfl⟩

/-- `TFV`: set by `HostSetTFine`; cleared by `END` of a reload and by reset. -/
theorem witness_FlagsChangeOnlyAsTheTableSays_tfv :
    (∃ t, step (State.turn { loaded with tfv := false } (.setTFine 0)) = .next t ∧ t.tfv = true) ∧
    (∃ t, step reloadAtEnd = .next t ∧ reloadAtEnd.busy = true ∧ (∀ u rest, reloadAtEnd.agenda ≠ .host u :: rest) ∧
      fetchInstr reloadAtEnd = some .endOp ∧ reloadAtEnd.tfv = true ∧ t.tfv = false) ∧
    (∃ t, step (State.turn loaded .reset) = .next t ∧ loaded.tfv = true ∧ t.tfv = false) :=
  ⟨⟨_, rfl, rfl⟩, ⟨_, rfl, rfl, no_host _ rfl, by decide, rfl, rfl⟩, _, rfl, rfl, rfl⟩

/-- `ERR`: cleared by `HostStart` and by reset; written by an abort and by `HostTransportFail`. -/
theorem witness_FlagsChangeOnlyAsTheTableSays_err :
    (∃ t, step (State.turn aborted .start) = .next t ∧ t.err ≠ aborted.err) ∧
    (∃ t, step (State.turn aborted .reset) = .next t ∧ t.err ≠ aborted.err) ∧
    (∃ t, step { started with buf := [], blen := 0 } = .next t ∧ t.err ≠ started.err ∧ t.busy = false) ∧
    (∃ t, step (State.turn loaded (.transportFail .auxSel)) = .next t ∧ t.err ≠ loaded.err) :=
  ⟨⟨_, rfl, by decide⟩, ⟨_, rfl, by decide⟩, ⟨_, rfl, by decide, rfl⟩, _, rfl, by decide⟩

theorem witness_LoadSucceeds : loaded.Inv ∧ loaded.busy = false ∧ loaded.ready := ⟨loaded_inv, rfl, loaded_ready⟩

/-- `BLEN` equal to the largest offset, and `AUXV` 0. -/
theorem witness_LoadFailsAtTheFirstMissingByte :
    (short.Inv ∧ short.busy = false ∧ ¬ short.ready) ∧ noAux.Inv ∧ noAux.busy = false ∧ ¬ noAux.ready :=
  ⟨⟨short_inv, rfl, short_not_ready⟩, noAux_inv, rfl, noAux_not_ready⟩

theorem witness_CanonicalLoadValues :
    loaded.Inv ∧ loaded.busy = false ∧ loaded.ready ∧ loaded.prog = calprog ⟨fun _ => 0, fun _ => 0, fun _ => 0⟩ 0x30 0xF0 ∧
    (∀ k : Byte, k.toNat < loaded.blen.toNat → loaded.buf.read k.toNat = some 0xAB) ∧
    ∀ x, loaded.aux.get x = some (match x with | .aux0 => 0x16 | .aux1 => 0x8D | .aux2 => 0xF3) := by
  refine ⟨loaded_inv, rfl, loaded_ready, rfl, fun k hk => ?_, fun x => by cases x <;> rfl⟩
  have h : k.toNat = 0 := Nat.lt_one_iff.mp hk
  rw [h]
  rfl

/-- `short` after a transport failure, with a read of `STATUS` inside the next cycle. -/
def failedShort : State := { short with err := .transportFailure, agenda := [.host .start, .host .readStatus] }

theorem failedShort_inv : failedShort.Inv :=
  ⟨short_inv.1, short_inv.2, short_inv.3, short_inv.4, short_inv.5, short_inv.6, short_inv.7, short_inv.8, short_inv.9,
    short_inv.10, short_inv.11, short_inv.12, short_inv.13, fun _ => rfl, fun h => by cases h⟩

/-- Two instances that differ in their `ERR`, the second with a read of `STATUS` inside the cycle: both cycles end. -/
theorem witness_LoadIsDeterministic :
    let s₁ := State.turn short .start
    let s₂ := failedShort
    (s₁.Inv ∧ s₂.Inv ∧ s₁.busy = false ∧ s₂.busy = false ∧ s₁.prog = s₂.prog ∧ s₁.buf = s₂.buf ∧ s₁.blen = s₂.blen ∧
      s₁.aux = s₂.aux ∧ s₁.auxv = s₂.auxv) ∧
    (s₁.agenda = .host .start :: [] ∧ s₂.agenda = .host .start :: [.host .readStatus] ∧
      ∀ u, Turn.host u ∈ [Turn.host .readStatus] → u.isRead = true) ∧
    (∃ t, s₁.runs (1 + 1) = .next t ∧ t.busy = false) ∧ (∃ t, s₂.runs (2 + 1) = .next t ∧ t.busy = false) :=
  ⟨⟨turn_inv short_inv _, failedShort_inv, rfl, rfl, rfl, rfl, rfl, rfl, rfl⟩,
    ⟨rfl, rfl, fun u h => by cases List.mem_singleton.mp h; rfl⟩, ⟨_, rfl, rfl⟩, _, rfl, rfl⟩

/-- `prog0` with its first two words exchanged. -/
def swapped : Program where
  words := prog0.words[1] :: prog0.words[0] :: prog0.words.drop 2
  ok := by decide

theorem witness_LoadIsOrderIndependent :
    (loaded.prog.words.take 26).Perm (swapped.words.take 26) ∧ swapped ≠ loaded.prog ∧
    (loaded.Inv ∧ loaded.busy = false ∧ loaded.ready) ∧
    (short.Inv ∧ short.busy = false ∧ short.prog = loaded.prog ∧ ¬ short.ready) :=
  ⟨List.Perm.swap _ _ _, fun h => by have := congrArg Program.words h; revert this; decide,
    ⟨loaded_inv, rfl, loaded_ready⟩, short_inv, rfl, rfl, short_not_ready⟩

theorem witness_BootSequenceLoadsTheRecord :
    let s := { atEnd with agenda := [.host .reset, .host (.fill [7]), .host (.setAux 1 2 3), .host .start] }
    s.agenda = [.host .reset, .host (.fill [7]), .host (.setAux 1 2 3), .host .start] ∧
    s.prog.maxOffset < [(7 : Byte)].length ∧ [(7 : Byte)].length ≤ 256 :=
  ⟨rfl, by rw [show atEnd.prog.maxOffset = 0 from prog0_maxOffset]; decide, by decide⟩

theorem witness_CycleEndsWithin27Steps :
    (started.Inv ∧ started.busy = true ∧ started.agenda = [] ∧ started.upc.toNat = 0) ∧
    atEnd.Inv ∧ atEnd.busy = true ∧ atEnd.agenda = [] ∧ atEnd.upc.toNat = 26 :=
  ⟨⟨started_inv, rfl, rfl, rfl⟩, atEnd_inv, rfl, rfl, rfl⟩

end Sys2Proof.Tests
end

/-! # The state: what every transaction, meaning and step does to it

Proofs about `10_state.md`. First the rules of the state's operations (the host's turn, the accepted transactions, the
sequencer's three effects), then the ranges of the coefficients, then one lemma per operation that it keeps the
invariant, then the obligations. -/

namespace Sys2Proof.Machine

open Sys2Proof

/-! ## The host's turn -/

section AfterTurn

variable (s : State) (rest : List Turn)

@[simp] theorem State.afterTurn_record : (s.afterTurn rest).record = s.record := rfl
@[simp] theorem State.afterTurn_valid : (s.afterTurn rest).valid = s.valid := rfl
@[simp] theorem State.afterTurn_staging : (s.afterTurn rest).staging = s.staging := rfl
@[simp] theorem State.afterTurn_written : (s.afterTurn rest).written = s.written := rfl
@[simp] theorem State.afterTurn_tFine : (s.afterTurn rest).tFine = s.tFine := rfl
@[simp] theorem State.afterTurn_tfv : (s.afterTurn rest).tfv = s.tfv := rfl
@[simp] theorem State.afterTurn_buf : (s.afterTurn rest).buf = s.buf := rfl
@[simp] theorem State.afterTurn_blen : (s.afterTurn rest).blen = s.blen := rfl
@[simp] theorem State.afterTurn_aux : (s.afterTurn rest).aux = s.aux := rfl
@[simp] theorem State.afterTurn_auxv : (s.afterTurn rest).auxv = s.auxv := rfl
@[simp] theorem State.afterTurn_upc : (s.afterTurn rest).upc = s.upc := rfl
@[simp] theorem State.afterTurn_busy : (s.afterTurn rest).busy = s.busy := rfl
@[simp] theorem State.afterTurn_err : (s.afterTurn rest).err = s.err := rfl
@[simp] theorem State.afterTurn_errinfo : (s.afterTurn rest).errinfo = s.errinfo := rfl
@[simp] theorem State.afterTurn_prog : (s.afterTurn rest).prog = s.prog := rfl
@[simp] theorem State.afterTurn_agenda : (s.afterTurn rest).agenda = rest := rfl
@[simp] theorem State.afterTurn_answer : (s.afterTurn rest).answer = none := rfl

end AfterTurn

/-! ## What an accepted step is -/

/-- A read transaction only answers (R119, R120, R132). -/
theorem transact_next_of_isRead {u : HostTxn} {s t : State} (hu : u.isRead = true) (h : transact u s = .next t) :
    ∃ a, t = s.answering a := by
  replace h := transact_next h
  cases u with
  | readStatus | readErrInfo => exact ⟨_, h⟩
  | readField n =>
    obtain ⟨-, f, v, -, -, ht⟩ := h
    exact ⟨_, ht⟩
  | readTFine =>
    obtain ⟨-, -, v, -, ht⟩ := h
    exact ⟨_, ht⟩
  | reset | fill | setAux | transportFail | start | setTFine => cases hu

/-- The three effects of the sequencer's step, in RUN with no host transaction next: commit, stage, abort. -/
theorem step_cases {s t : State} (h : step s = .next t) :
    (∃ u rest, s.agenda = .host u :: rest ∧ transact u (s.afterTurn rest) = .next t) ∨
    (s.busy = true ∧ (∀ u rest, s.agenda ≠ .host u :: rest) ∧
      ((fetchInstr s = some .endOp ∧ t = (s.afterTurn s.agenda.tail).commit) ∨
        (∃ f v, t = ((s.afterTurn s.agenda.tail).stage f v).advance) ∨
        ∃ src off, t = (s.afterTurn s.agenda.tail).abort src off)) := by
  obtain hhost | ⟨hn, hb, i, hi, he⟩ := step_next h
  · exact .inl hhost
  · refine .inr ⟨hb, hn, ?_⟩
    obtain ⟨rfl, ht⟩ | ⟨rd, -, -, ⟨v, ht⟩ | hab⟩ := exec_next he
    · exact .inl ⟨hi, ht⟩
    · exact .inr (.inl ⟨rd, v, ht⟩)
    · exact .inr (.inr hab)

/-! ## The word at `UPC` -/

/-- Under the invariant the fetched micro-operation is `END` exactly at 26, and before it the extraction whose
destination is the program's destination of that index (R70, R111). -/
theorem State.Inv.fetchInstr_cases {s : State} (hs : s.Inv) {i : Instr} (hi : fetchInstr s = some i) :
    (i = .endOp ∧ s.upc.toNat = 26) ∨
    ∃ rd, i.dest = some rd ∧ rd.opOf = i.op ∧ s.upc.toNat < 26 ∧ s.prog.dests[s.upc.toNat]? = some rd := by
  obtain hlt | heq := Nat.lt_or_eq_of_le hs.upc_le
  · obtain ⟨w, j, rd, hw, hj, hd, hop⟩ := s.prog.extraction_at hlt
    have hij : j = i := by simpa [fetchInstr, fetch, hw, hj] using hi
    subst hij
    exact .inr ⟨rd, hd, hop, hlt, by simp [s.prog.dests_getElem? hlt, hw, hj, hd]⟩
  · have hend : fetchInstr s = some .endOp := by simpa [fetchInstr, fetch, heq] using s.prog.decode_last
    exact .inl ⟨by simpa [hend] using hi.symm, heq⟩

/-- The bytes that the invariant says are held are all that a meaning needs. -/
theorem State.Inv.held {s : State} (hs : s.Inv) : s.Held :=
  ⟨fun k hk => by simpa [hs.buf_held] using hk, fun hv x => by rw [hs.aux_held, hv]⟩

/-- What an extraction leaves when it answers a next state: the result of its bytes staged, or an abort. -/
theorem exec_next_of_held {i : Instr} {rd : Field} {s t : State} (hs : s.Held) (hd : i.dest = some rd)
    (hop : rd.opOf = i.op) (h : exec i s = .next t) :
    (∃ v, s.resultBits i rd = some v ∧ t = (s.stage rd v).advance) ∨ ∃ src off, t = s.abort src off := by
  rw [exec_of_dest i rd s hs hd hop, afterReads] at h
  split at h
  next r _ => exact .inr ⟨r.1, r.2, (Host.Outcome.next.inj h).symm⟩
  · split at h
    next v hv => exact .inl ⟨v, hv, (Host.Outcome.next.inj h).symm⟩
    · cases h

/-! ## `ERRINFO` as a number -/

/-- The number of two bit vectors side by side. -/
theorem toNat_append_eq_mul_add {n m : Nat} (x : BitVec n) (y : BitVec m) :
    (x ++ y).toNat = x.toNat * 2 ^ m + y.toNat := by
  rw [BitVec.toNat_append, ← Nat.shiftLeft_add_eq_or_of_lt y.isLt, Nat.shiftLeft_eq]

/-- `ERRINFO` is the number `UPC * 512 + SRC * 256 + OFF` (R22). -/
theorem errInfoWord_toNat (upc : BitVec 5) (src : ReadSrc) (off : Byte) :
    (errInfoWord upc src off).toNat =
      upc.toNat * 512 + (match src with | .buffer => 0 | .aux => 256) + off.toNat := by
  simp only [errInfoWord, toNat_append_eq_mul_add]
  cases src <;> simp [srcBit] <;> omega

/-- The `UPC` field of `ERRINFO` (R22). -/
theorem errInfoWord_upc (upc : BitVec 5) (src : ReadSrc) (off : Byte) :
    (errInfoWord upc src off).toNat / 512 = upc.toNat := by
  have hoff := off.isLt
  rw [errInfoWord_toNat]
  cases src <;> simp only <;> omega

end Sys2Proof.Machine

namespace Sys2Proof

open Sys2Proof.Machine

/-! ## The ranges of the coefficients -/

/-- A bit pattern's value lies in its field's range (R10). -/
def Field.InRange (f : Field) (v : BitVec f.width) : Prop := (fieldRange f).1 ≤ f.val v ∧ f.val v ≤ (fieldRange f).2

/-- The range of a type as a whole, which is the range of every field that is neither packed nor masked. -/
def FieldType.range (t : FieldType) : Int × Int :=
  if t.signed then (-2 ^ (t.width - 1), 2 ^ (t.width - 1) - 1) else (0, 2 ^ t.width - 1)

/-- Every bit pattern of a field has a value in the range of the field's type. -/
theorem Field.val_mem_range (f : Field) (v : BitVec f.width) : f.ty.range.1 ≤ f.val v ∧ f.val v ≤ f.ty.range.2 := by
  unfold FieldType.range Field.val
  split
  · exact ⟨BitVec.le_toInt v, Int.le_sub_one_of_lt BitVec.toInt_lt⟩
  · exact ⟨Int.natCast_nonneg _, Int.le_sub_one_of_lt (mod_cast v.isLt)⟩

/-- The fields that span their type: all but the packed and the masked ones (R10). -/
theorem fieldRange_eq_range {f : Field} (hl : f.opOf ≠ .pk12l) (hh : f.opOf ≠ .pk12h) (hm : f.opOf ≠ .amsk) :
    fieldRange f = f.ty.range := by
  cases f with
  | par_h1 => exact absurd rfl hl
  | par_h2 => exact absurd rfl hh
  | res_heat_range | range_sw_err => exact absurd rfl hm
  | _ => rfl

/-- Every bit pattern of a field that spans its type is in range. -/
theorem Field.inRange_of_opOf {f : Field} (hl : f.opOf ≠ .pk12l) (hh : f.opOf ≠ .pk12h) (hm : f.opOf ≠ .amsk)
    (v : BitVec f.width) : f.InRange v := by
  rw [Field.InRange, fieldRange_eq_range hl hh hm]
  exact f.val_mem_range v

/-- The two packed fields: 12 bits in a register of 16 (R10). -/
theorem Field.packed_of_opOf {f : Field} (h : f.opOf = .pk12l ∨ f.opOf = .pk12h) :
    fieldRange f = (0, 4095) ∧ f.width = 16 := by
  cases f with
  | par_h1 | par_h2 => exact ⟨rfl, rfl⟩
  | _ => simp [Field.opOf] at h

/-- The two masked fields: a nibble in a register of 8 bits (R10). -/
theorem Field.masked_of_opOf {f : Field} (h : f.opOf = .amsk) : fieldRange f = (0, 15) ∧ f.width = 8 := by
  cases f with
  | res_heat_range | range_sw_err => exact ⟨rfl, rfl⟩
  | _ => cases h

/-- A number below half of the register's patterns is its own value, in a signed register as in an unsigned one. -/
theorem Field.val_bitsN_natCast (f : Field) {n : Nat} (hn : 2 * n < 2 ^ f.width) : f.val (bitsN f.width n) = n := by
  have hnat : (bitsN f.width n).toNat = n := by
    rw [bitsN, BitVec.ofInt_natCast, BitVec.toNat_ofNat, Nat.mod_eq_of_lt (by omega)]
  have hint : (bitsN f.width n).toInt = n := by
    rw [BitVec.toInt_eq_toNat_of_lt (by rwa [hnat]), hnat]
  rw [Field.val, hnat, hint, ite_self]

/-- A packed value is a 12-bit number (R86). -/
theorem pack12_lt (m : Byte) {nib : Nat} (hnib : nib < 16) : pack12 m nib < 4096 := by
  have hm : m.toNat <<< 4 < 2 ^ 12 := Nat.shiftLeft_lt m.isLt
  exact Nat.or_lt_two_pow hm (by omega)

/-- A low nibble is below 16 (R85). -/
theorem lo4_lt (x : Byte) : lo4 x < 16 := Nat.and_lt_two_pow (n := 4) _ (by decide)

/-- A high nibble is below 16 (R85). -/
theorem hi4_lt (x : Byte) : hi4 x < 16 := by
  have hx := x.isLt
  simp only [hi4, Config.humShift]
  omega

/-- A masked value is a nibble (R87). -/
theorem maskShift_lt (raw mask : Byte) : maskShift raw mask < 16 := by
  have hand : raw.toNat &&& mask.toNat < 2 ^ 8 := Nat.and_lt_two_pow _ mask.isLt
  simp only [maskShift, Config.derivedShift]
  omega

/-- A packed field holds a packed value in its range. -/
theorem Field.inRange_packed {f : Field} (h : f.opOf = .pk12l ∨ f.opOf = .pk12h) {n : Nat} (hn : n < 4096) :
    f.InRange (bitsN f.width n) := by
  obtain ⟨hr, hw⟩ := Field.packed_of_opOf h
  rw [Field.InRange, hr, f.val_bitsN_natCast (by rw [hw]; omega)]
  exact ⟨by omega, by omega⟩

/-- A masked field holds a nibble in its range. -/
theorem Field.inRange_masked {f : Field} (h : f.opOf = .amsk) {n : Nat} (hn : n < 16) :
    f.InRange (bitsN f.width n) := by
  obtain ⟨hr, hw⟩ := Field.masked_of_opOf h
  rw [Field.InRange, hr, f.val_bitsN_natCast (by rw [hw]; omega)]
  exact ⟨by omega, by omega⟩

end Sys2Proof

namespace Sys2Proof.Machine

open Sys2Proof

/-- Every micro-operation yields a value in the range of the field it is bound to (R10, R66). -/
theorem State.resultBits_inRange {s : State} {i : Instr} {f : Field} (hd : i.dest = some f) (hop : f.opOf = i.op)
    {v : BitVec f.width} (hv : s.resultBits i f = some v) : f.InRange v := by
  cases i with
  | pk12l rd a b =>
    obtain ⟨m, -, hm⟩ := Option.bind_eq_some_iff.mp hv
    obtain ⟨l, -, hl⟩ := Option.bind_eq_some_iff.mp hm
    exact Option.some.inj hl ▸ Field.inRange_packed (.inl hop) (pack12_lt m (lo4_lt l))
  | pk12h rd a b =>
    obtain ⟨m, -, hm⟩ := Option.bind_eq_some_iff.mp hv
    obtain ⟨l, -, hl⟩ := Option.bind_eq_some_iff.mp hm
    exact Option.some.inj hl ▸ Field.inRange_packed (.inr hop) (pack12_lt m (hi4_lt l))
  | amsk rd n mask =>
    obtain ⟨raw, -, hraw⟩ := Option.bind_eq_some_iff.mp hv
    exact Option.some.inj hraw ▸ Field.inRange_masked hop (maskShift_lt raw mask)
  | endOp => cases hd
  | uword | sword | sbyte | ubyte | asbyte =>
    exact Field.inRange_of_opOf (by simp [hop, Instr.op]) (by simp [hop, Instr.op]) (by simp [hop, Instr.op]) v

/-- A written register file is in range when the file and the written value are. -/
theorem RegFile.inRange.set {g : RegFile} (hg : g.inRange) {f : Field} {v : BitVec f.width} (hv : f.InRange v) :
    (g.set f v).inRange := by
  intro h w hw
  by_cases e : h = f
  · subst e
    rw [RegFile.get_set_same, Option.some.injEq] at hw
    exact hw ▸ hv
  · rw [RegFile.get_set_other g f h v e] at hw
    exact hg h w hw

/-- A file without values is in range. -/
theorem RegFile.inRange_empty : RegFile.inRange {} := fun f v h => by simp at h

/-- In a state where `W` is zero no field is marked as written. -/
theorem State.isWritten_of_written_zero {s : State} (h : s.written = 0) (f : Field) : s.isWritten f = false := by
  simp [State.isWritten, h]

/-- When the staged values are discarded `W` and the staging file agree again (R15). -/
theorem State.discardStaged_held (s : State) (f : Field) :
    (s.discardStaged.staging.get f).isSome = s.discardStaged.isWritten f := by
  rw [State.isWritten_of_written_zero rfl, State.discardStaged_staging, RegFile.get_empty, Option.isSome_none]

/-! ## The invariant after reset, and what it says of a cycle's ends -/

/-- A state in IDLE keeps the invariant when it gets another program and other turns to come. -/
theorem State.Inv.withProg {s : State} (hs : s.Inv) (hb : s.busy = false) (p : Program) (ts : List Turn) :
    State.Inv { s with prog := p, agenda := ts } :=
  { hs with run_staged := fun h => absurd h (by simp [hb]) }

/-- The state after reset meets the invariant: nothing holds a value, and nothing says that it does (R31). -/
theorem State.reset_inv : State.reset.Inv where
  buf_wf := Memory.wf_nil
  buf_held := fun _ => rfl
  blen_le := by decide
  aux_held := fun x => congrArg Option.isSome (AuxFile.get_empty x)
  record_held := fun f => congrArg Option.isSome (RegFile.get_empty f)
  record_range := RegFile.inRange_empty
  staging_held := fun f => by
    rw [State.isWritten_of_written_zero rfl]
    exact congrArg Option.isSome (RegFile.get_empty f)
  staging_range := RegFile.inRange_empty
  tfv_held := nofun
  upc_le := by decide
  run_staged := nofun
  idle_unstaged := fun _ => rfl
  errinfo_fields := by decide
  errinfo_zero := fun _ => rfl
  run_noError := nofun

/-- In RUN at `END` every field is staged: the program names each field once (R70, R110). -/
theorem State.Inv.isWritten_at_end {s : State} (hs : s.Inv) (hb : s.busy = true) (hu : s.upc.toNat = 26) (f : Field) :
    s.isWritten f = true := by
  rw [hs.run_staged hb, hu, List.take_of_length_le s.prog.dests_length.le]
  exact s.prog.mem_dests f

/-! ## Every operation keeps the invariant -/

/-- Whose turn comes next and what was answered are no part of the invariant. -/
theorem State.Inv.afterTurn {s : State} (hs : s.Inv) (rest : List Turn) : (s.afterTurn rest).Inv := { hs with }

/-- An answer is no part of the invariant. -/
theorem State.Inv.answering {s : State} (hs : s.Inv) (a : Answer) : (s.answering a).Inv := { hs with }

/-- `HostFill` leaves exactly the bytes it delivers (R23, R114). -/
theorem State.Inv.fill {s : State} (hs : s.Inv) {bytes : List Byte} (hl : bytes.length ≤ 256) :
    State.Inv { s with buf := Memory.fill bytes, blen := BitVec.ofNat 9 bytes.length } := by
  have hlen : (BitVec.ofNat 9 bytes.length).toNat = bytes.length := by
    rw [BitVec.toNat_ofNat, Nat.mod_eq_of_lt (by omega)]
  exact
    { hs with
      buf_wf := Memory.wf_fill bytes hl
      buf_held := fun k => by rw [hlen, Memory.read_fill, Bool.eq_iff_iff]; simp
      blen_le := hlen.symm ▸ hl }

/-- `HostSetAux` supplies all three bytes (R115). -/
theorem State.Inv.setAux {s : State} (hs : s.Inv) (b0 b1 b2 : Byte) :
    State.Inv { s with aux := ⟨some b0, some b1, some b2⟩, auxv := true } :=
  { hs with aux_held := fun x => by cases x <;> rfl }

/-- The input a transport failure concerns holds no value, and nothing says that it does (R116). -/
theorem State.Inv.invalidate {s : State} (hs : s.Inv) (sel : InputSel) : (s.invalidate sel).Inv := by
  cases sel with
  | bufSel => exact { hs with buf_wf := Memory.wf_nil, buf_held := fun _ => rfl, blen_le := Nat.zero_le _ }
  | auxSel => exact { hs with aux_held := fun x => congrArg Option.isSome (AuxFile.get_empty x) }

/-- In IDLE any code may be recorded with a zero `ERRINFO` (R21, R22). -/
theorem State.Inv.setErr {s : State} (hs : s.Inv) (hb : s.busy = false) (e : ErrCode) :
    State.Inv { s with err := e, errinfo := 0 } :=
  { hs with
    errinfo_fields := by simp
    errinfo_zero := fun _ => rfl
    run_noError := fun h => absurd h (by simp [hb]) }

/-- `HostSetTFine`, accepted over a loaded record only (R131). -/
theorem State.Inv.setTFine {s : State} (hs : s.Inv) (hv : s.valid = true) (v : BitVec Config.tfineW) :
    State.Inv { s with tFine := some v, tfv := true } :=
  { hs with tfv_held := fun _ => ⟨hv, rfl⟩ }

/-- `HostStart` begins a cycle with nothing staged and no error recorded (R118). -/
theorem State.Inv.startCycle {s : State} (hs : s.Inv) : s.startCycle.Inv :=
  { hs with
    staging_held := s.discardStaged_held
    staging_range := RegFile.inRange_empty
    upc_le := Nat.zero_le _
    run_staged := fun _ f => by
      rw [State.isWritten_of_written_zero rfl]
      simp
    idle_unstaged := fun _ => rfl
    errinfo_fields := by simp
    errinfo_zero := fun _ => rfl
    run_noError := fun _ => rfl }

/-- The abort, raised at an extraction word, stops the cycle with nothing staged and records the index (R147). -/
theorem State.Inv.abort {s : State} (hs : s.Inv) (hu : s.upc.toNat < 26) (src : ReadSrc) (off : Byte) :
    (s.abort src off).Inv :=
  { hs with
    staging_held := s.discardStaged_held
    staging_range := RegFile.inRange_empty
    run_staged := nofun
    idle_unstaged := fun _ => rfl
    errinfo_fields := by
      rw [State.abort_errinfo, errInfoWord_upc]
      omega
    errinfo_zero := fun h => absurd rfl h
    run_noError := nofun }

/-- `END` at 26 in RUN commits a record all of whose fields are staged (R17, R110). -/
theorem State.Inv.commit {s : State} (hs : s.Inv) (hb : s.busy = true) (hu : s.upc.toNat = 26) : s.commit.Inv :=
  { hs with
    record_held := fun f => (hs.staging_held f).trans (hs.isWritten_at_end hb hu f)
    record_range := hs.staging_range
    staging_held := s.discardStaged_held
    staging_range := RegFile.inRange_empty
    tfv_held := nofun
    run_staged := nofun
    idle_unstaged := fun _ => rfl
    run_noError := nofun }

/-- Staging the destination of the word at `UPC` and going on to the next word (R15, R18). -/
theorem State.Inv.stage_advance {s : State} (hs : s.Inv) (hb : s.busy = true) (hu : s.upc.toNat < 26) {f : Field}
    (hf : s.prog.dests[s.upc.toNat]? = some f) {v : BitVec f.width} (hv : f.InRange v) : (s.stage f v).advance.Inv := by
  have hnext : (s.upc + 1).toNat = s.upc.toNat + 1 := by bv_omega
  exact
    { hs with
      staging_held := fun g => by
        rw [State.isWritten_advance, State.isWritten_stage, State.advance_staging, State.stage_staging]
        by_cases e : g = f
        · subst e
          simp
        · rw [RegFile.get_set_other s.staging f g v e, hs.staging_held]
          simp [e]
      staging_range := hs.staging_range.set hv
      upc_le := by
        rw [State.advance_upc, State.stage_upc, hnext]
        omega
      run_staged := fun _ g => by
        have htake : s.prog.dests.take (s.upc.toNat + 1) = s.prog.dests.take s.upc.toNat ++ [f] := by
          rw [List.take_add_one, hf]
          rfl
        rw [State.isWritten_advance, State.isWritten_stage, State.advance_upc, State.stage_upc, hnext,
          State.advance_prog, State.stage_prog, htake, List.mem_append, List.mem_singleton, ← hs.run_staged hb g,
          Bool.or_eq_true, decide_eq_true_eq]
      idle_unstaged := fun h => by simp [hb] at h }

/-- Every accepted host transaction keeps the invariant. -/
theorem transact_keeps_inv {u : HostTxn} {s t : State} (hs : s.Inv) (h : transact u s = .next t) : t.Inv := by
  cases hr : u.isRead with
  | true =>
    obtain ⟨a, rfl⟩ := transact_next_of_isRead hr h
    exact hs.answering a
  | false =>
    replace h := transact_next h
    cases u with
    | reset => exact h ▸ State.reset_inv.withProg rfl s.prog s.agenda
    | fill bytes =>
      obtain ⟨-, hl, rfl⟩ := h
      exact hs.fill hl
    | setAux b0 b1 b2 =>
      obtain ⟨-, rfl⟩ := h
      exact hs.setAux b0 b1 b2
    | transportFail sel =>
      obtain ⟨hb, rfl⟩ := h
      exact (hs.invalidate sel).setErr (by cases sel <;> exact hb) .transportFailure
    | start =>
      obtain ⟨-, rfl⟩ := h
      exact hs.startCycle
    | setTFine v =>
      obtain ⟨hv, rfl⟩ := h
      exact hs.setTFine hv v
    | readStatus | readErrInfo | readField | readTFine => cases hr

/-- The micro-operation at `UPC` keeps the invariant in RUN. -/
theorem exec_keeps_inv {i : Instr} {s t : State} (hs : s.Inv) (hb : s.busy = true) (hi : fetchInstr s = some i)
    (h : exec i s = .next t) : t.Inv := by
  obtain ⟨rfl, hu⟩ | ⟨rd, hd, hop, hu, hrd⟩ := hs.fetchInstr_cases hi
  · exact Host.Outcome.next.inj h ▸ hs.commit hb hu
  · obtain ⟨v, hv, rfl⟩ | ⟨src, off, rfl⟩ := exec_next_of_held hs.held hd hop h
    · exact hs.stage_advance hb hu hrd (State.resultBits_inRange hd hop hv)
    · exact hs.abort hu src off

/-- Settles O42: each of the two agents keeps the invariant, the host by its transactions and the sequencer by the
micro-operation at `UPC`. -/
theorem stepKeepsInvariant : Obligations.StepKeepsInvariant := by
  intro s t hs h
  obtain ⟨u, rest, -, hu⟩ | ⟨-, hb, i, hi, he⟩ := step_next h
  · exact transact_keeps_inv (hs.afterTurn rest) hu
  · exact exec_keeps_inv (hs.afterTurn _) hb hi he

/-- Settles O41: nothing holds a value after reset, and a state in IDLE takes any program. -/
theorem resetSatisfiesInvariant : Obligations.ResetSatisfiesInvariant :=
  ⟨State.reset_inv, fun p => State.reset_inv.withProg rfl p []⟩

/-! ## The frame of the extractions -/

/-- The abort is the one R147 describes. -/
theorem State.abort_abortedFrom (s : State) (src : ReadSrc) (off : Byte) : AbortedFrom s src off (s.abort src off) where
  err := rfl
  errinfo := errInfoWord_toNat s.upc src off
  written := rfl
  busy := rfl
  upc := rfl
  record := rfl
  valid := rfl
  tFine := rfl
  tfv := rfl
  buf := fun _ => rfl
  blen := rfl
  aux := rfl
  auxv := rfl
  prog := rfl
  agenda := rfl
  answer := rfl

/-- Settles O24: an extraction stages its destination and goes on, or aborts; both leave the rest of the state. -/
theorem extractionFrame : Obligations.ExtractionFrame := by
  intro i rd s t hd h
  obtain ⟨rfl, -⟩ | ⟨f, hf, -, ⟨v, rfl⟩ | ⟨src, off, rfl⟩⟩ := exec_next h
  · cases hd
  · obtain rfl : rd = f := Option.some.inj (hd.symm.trans hf)
    have hset : (s.stage rd v).advance.isWritten rd = true := by simp
    have hother : ∀ g, g ≠ rd → (s.stage rd v).advance.staging.get g = s.staging.get g ∧
        (s.stage rd v).advance.isWritten g = s.isWritten g := fun g hg =>
      ⟨RegFile.get_set_other s.staging rd g v hg, by simp [hg]⟩
    exact ⟨rfl, rfl, rfl, rfl, fun _ => rfl, rfl, rfl, rfl, rfl, .inl ⟨rfl, rfl, rfl, rfl, hset, hother⟩⟩
  · exact ⟨rfl, rfl, rfl, rfl, fun _ => rfl, rfl, rfl, rfl, rfl, .inr ⟨src, off, s.abort_abortedFrom src off⟩⟩

/-! ## What the host can tell apart -/

/-- Two states agree on every piece of state a host transaction depends on or returns (R14, R18, R23). -/
structure SameVisible (s₁ s₂ : State) : Prop where
  record : s₁.record = s₂.record
  valid : s₁.valid = s₂.valid
  tFine : s₁.tFine = s₂.tFine
  tfv : s₁.tfv = s₂.tfv
  auxv : s₁.auxv = s₂.auxv
  busy : s₁.busy = s₂.busy
  err : s₁.err = s₂.err
  errinfo : s₁.errinfo = s₂.errinfo
  answer : s₁.answer = s₂.answer

/-- Wherever the first outcome is a next state the second is one with the same answer. -/
def SameReply (o₁ o₂ : Host.Outcome State Fault Refusal) : Prop :=
  ∀ t₁, o₁ = .next t₁ → ∃ t₂, o₂ = .next t₂ ∧ t₂.answer = t₁.answer

/-- Two next states with one answer. -/
theorem SameReply.next {t₁ t₂ : State} (h : t₁.answer = t₂.answer) : SameReply (.next t₁) (.next t₂) := by
  rintro t ⟨⟩
  exact ⟨t₂, rfl, h.symm⟩

/-- A refused transaction promises nothing. -/
theorem SameReply.refused (r : Refusal) (o : Host.Outcome State Fault Refusal) : SameReply (.refused r) o :=
  fun _ h => by cases h

/-- A fault promises nothing. -/
theorem SameReply.fault (r : Fault) (o : Host.Outcome State Fault Refusal) : SameReply (.fault r) o :=
  fun _ h => by cases h

/-- The precondition `BUSY = 0` looks at `BUSY` alone. -/
theorem SameReply.whenIdle {s₁ s₂ : State} {k₁ k₂ : Host.Outcome State Fault Refusal} (hv : SameVisible s₁ s₂)
    (hk : SameReply k₁ k₂) : SameReply (whenIdle s₁ k₁) (whenIdle s₂ k₂) := by
  unfold Machine.whenIdle
  rw [hv.busy]
  split
  · exact .refused _ _
  · exact hk

/-- The precondition `VALID = 1` looks at `VALID` alone. -/
theorem SameReply.whenLoaded {s₁ s₂ : State} {k₁ k₂ : Host.Outcome State Fault Refusal} (hv : SameVisible s₁ s₂)
    (hk : SameReply k₁ k₂) : SameReply (whenLoaded s₁ k₁) (whenLoaded s₂ k₂) := by
  unfold Machine.whenLoaded
  rw [hv.valid]
  split
  · exact hk
  · exact .refused _ _

/-- `STATUS` is made of visible fields (R19). -/
theorem SameVisible.statusWord {s₁ s₂ : State} (hv : SameVisible s₁ s₂) : statusWord s₁ = statusWord s₂ := by
  simp only [Machine.statusWord, hv.err, hv.tfv, hv.auxv, hv.valid, hv.busy]

/-- A transaction's acceptance and answer depend on the visible fields alone. -/
theorem transact_sameReply {s₁ s₂ : State} (hv : SameVisible s₁ s₂) (u : HostTxn) :
    SameReply (transact u s₁) (transact u s₂) := by
  cases u with
  | reset => exact .next rfl
  | fill bytes =>
    refine .whenIdle hv ?_
    split
    · exact .next hv.answer
    · exact .refused _ _
  | setAux | start => exact .whenIdle hv (.next hv.answer)
  | transportFail sel => exact .whenIdle hv (.next (by cases sel <;> exact hv.answer))
  | readStatus => exact .next (by simp [hv.statusWord])
  | readErrInfo => exact .next (by simp [hv.errinfo])
  | readField n =>
    refine .whenLoaded hv ?_
    rw [hv.record]
    split
    · exact .refused _ _
    · split
      · exact .next rfl
      · exact .fault _ _
  | setTFine v => exact .whenLoaded hv (.next hv.answer)
  | readTFine =>
    refine .whenLoaded hv ?_
    rw [hv.tfv, hv.tFine]
    split
    · split
      · exact .next rfl
      · exact .fault _ _
    · exact .refused _ _

/-- Settles O40: taking the turn leaves the two states alike, and the transaction sees the visible fields alone. -/
theorem hiddenStateGivesNoAnswer : Obligations.HiddenStateGivesNoAnswer := by
  intro s₁ s₂ t₁ u rest h₁ h₂ record valid tFine tfv auxv busy err errinfo h
  have hv : SameVisible (s₁.afterTurn rest) (s₂.afterTurn rest) :=
    { record, valid, tFine, tfv, auxv, busy, err, errinfo, answer := rfl }
  rw [step_host h₁] at h
  rw [step_host h₂]
  exact transact_sameReply hv u t₁ h

/-! ## What changes the record and the flags -/

/-- Of the host transactions only `Reset` writes the record or `VALID` (R12, R17). -/
theorem transact_record {u : HostTxn} {s t : State} (h : transact u s = .next t) :
    (t.record = s.record ∧ t.valid = s.valid) ∨ (u = .reset ∧ t.record = {} ∧ t.valid = false) := by
  cases hr : u.isRead with
  | true =>
    obtain ⟨a, rfl⟩ := transact_next_of_isRead hr h
    exact .inl ⟨rfl, rfl⟩
  | false =>
    replace h := transact_next h
    cases u with
    | reset =>
      rw [h]
      exact .inr ⟨rfl, rfl, rfl⟩
    | fill =>
      obtain ⟨-, -, rfl⟩ := h
      exact .inl ⟨rfl, rfl⟩
    | transportFail sel =>
      obtain ⟨-, rfl⟩ := h
      exact .inl (by cases sel <;> exact ⟨rfl, rfl⟩)
    | setAux | start | setTFine =>
      obtain ⟨-, rfl⟩ := h
      exact .inl ⟨rfl, rfl⟩
    | readStatus | readErrInfo | readField | readTFine => cases hr

/-- Settles O45: the sequencer writes the record at `END` alone, the host at `Reset` alone. -/
theorem recordChangesOnlyByCommitOrReset : Obligations.RecordChangesOnlyByCommitOrReset := by
  intro s t h
  obtain ⟨u, rest, hag, hu⟩ | ⟨hb, hn, ⟨hf, rfl⟩ | ⟨f, v, rfl⟩ | ⟨src, off, rfl⟩⟩ := step_cases h
  · obtain hsame | ⟨rfl, hrec, hval⟩ := transact_record hu
    · exact .inl hsame
    · exact .inr (.inr ⟨rest, hag, fun f => hrec ▸ RegFile.get_empty f, hval⟩)
  · exact .inr (.inl ⟨hb, hf, hn, rfl, rfl, rfl⟩)
  · exact .inl ⟨rfl, rfl⟩
  · exact .inl ⟨rfl, rfl⟩

/-- The host's entries in the set-by and cleared-by columns of the table of `STATUS` (R19, R21). -/
theorem transact_flags {u : HostTxn} {s t : State} (h : transact u s = .next t) :
    (t.busy ≠ s.busy → (t.busy = true ∧ u = .start) ∨ (t.busy = false ∧ u = .reset)) ∧
    (t.auxv ≠ s.auxv → (t.auxv = true ∧ ∃ b0 b1 b2, u = .setAux b0 b1 b2) ∨
      (t.auxv = false ∧ (u = .transportFail .auxSel ∨ u = .reset))) ∧
    (t.tfv ≠ s.tfv → (t.tfv = true ∧ ∃ v, u = .setTFine v) ∨ (t.tfv = false ∧ u = .reset)) ∧
    (t.err ≠ s.err → (t.err = .noError ∧ (u = .start ∨ u = .reset)) ∨
      (t.err = .transportFailure ∧ ∃ sel, u = .transportFail sel)) := by
  cases hr : u.isRead with
  | true =>
    obtain ⟨a, rfl⟩ := transact_next_of_isRead hr h
    simp
  | false =>
    replace h := transact_next h
    cases u with
    | reset =>
      rw [h]
      simp [State.reset]
    | fill =>
      obtain ⟨-, -, rfl⟩ := h
      simp
    | transportFail sel =>
      obtain ⟨-, rfl⟩ := h
      cases sel <;> simp
    | setAux | start | setTFine =>
      obtain ⟨-, rfl⟩ := h
      simp
    | readStatus | readErrInfo | readField | readTFine => cases hr

/-- Settles O47: the host's entries of the table by `transact_flags`, the sequencer's by its three effects. -/
theorem flagsChangeOnlyAsTheTableSays : Obligations.FlagsChangeOnlyAsTheTableSays := by
  intro s t h
  obtain ⟨u, rest, hag, hu⟩ | ⟨hb, hn, ⟨hf, rfl⟩ | ⟨f, v, rfl⟩ | ⟨src, off, rfl⟩⟩ := step_cases h
  · obtain ⟨hbusy, hauxv, htfv, herr⟩ := transact_flags hu
    refine ⟨fun hc => ?_, fun hc => ?_, fun hc => ?_, fun hc => ?_⟩
    · obtain ⟨ht, rfl⟩ | ⟨ht, rfl⟩ := hbusy hc
      · exact .inl ⟨ht, rest, hag⟩
      · exact .inr ⟨ht, .inl ⟨rest, hag⟩⟩
    · obtain ⟨ht, b0, b1, b2, rfl⟩ | ⟨ht, rfl | rfl⟩ := hauxv hc
      · exact .inl ⟨ht, b0, b1, b2, rest, hag⟩
      · exact .inr ⟨ht, rest, .inl hag⟩
      · exact .inr ⟨ht, rest, .inr hag⟩
    · obtain ⟨ht, v, rfl⟩ | ⟨ht, rfl⟩ := htfv hc
      · exact .inl ⟨ht, v, rest, hag⟩
      · exact .inr ⟨ht, .inl ⟨rest, hag⟩⟩
    · obtain ⟨ht, rfl | rfl⟩ | ⟨ht, sel, rfl⟩ := herr hc
      · exact .inl ⟨ht, rest, .inl hag⟩
      · exact .inl ⟨ht, rest, .inr hag⟩
      · exact .inr (.inr ⟨ht, sel, rest, hag⟩)
  · exact ⟨fun _ => .inr ⟨rfl, .inr ⟨hb, hn, .inl hf⟩⟩, fun hc => absurd rfl hc,
      fun _ => .inr ⟨rfl, .inr ⟨hb, hn, hf⟩⟩, fun hc => absurd rfl hc⟩
  · exact ⟨fun hc => absurd rfl hc, fun hc => absurd rfl hc, fun hc => absurd rfl hc, fun hc => absurd rfl hc⟩
  · exact ⟨fun _ => .inr ⟨rfl, .inr ⟨hb, hn, .inr rfl⟩⟩, fun hc => absurd rfl hc, fun hc => absurd rfl hc,
      fun _ => .inr (.inl ⟨rfl, hb, rfl, hn⟩)⟩

/-! ## The record file, and reset -/

/-- Settles O13: the registers of a record file are disjoint storage. -/
theorem recordRegistersAreDisjoint : Obligations.RecordRegistersAreDisjoint := fun g f h v =>
  ⟨g.get_set_same f v, g.get_set_other f h v⟩

/-- With no error and no flag set `STATUS` reads 0x00 (R19). -/
theorem statusWord_eq_zero {s : State} (herr : s.err = .noError) (htfv : s.tfv = false) (hauxv : s.auxv = false)
    (hvalid : s.valid = false) (hbusy : s.busy = false) : statusWord s = 0 := by
  simp only [statusWord, herr, htfv, hauxv, hvalid, hbusy]
  decide

/-- Settles O28: `Reset` has no precondition, and every field it leaves is the one R31 gives. -/
theorem resetGivesTheResetValues : Obligations.ResetGivesTheResetValues := fun _ _ h =>
  ⟨_, step_host h, RegFile.get_empty, rfl, RegFile.get_empty, rfl, rfl, rfl, Memory.read_nil, rfl, AuxFile.get_empty,
    rfl, rfl, rfl, rfl, rfl, statusWord_eq_zero rfl rfl rfl rfl rfl, rfl, rfl⟩

end Sys2Proof.Machine

/-! # The memory: `PROG`, and the inputs of a cycle

Proofs about `20_memory.md`: no agent writes the program, and none but `Reset` writes `BUF`, `BLEN`, `AUX` or `AUXV`
while `BUSY = 1`. -/

namespace Sys2Proof.Machine

open Sys2Proof

/-- An invalidated input leaves the program, whichever input it is. -/
@[simp] theorem State.invalidate_prog (s : State) (sel : InputSel) : (s.invalidate sel).prog = s.prog := by
  cases sel <;> rfl

/-- No host transaction writes `PROG`, not even `Reset` (R26, R54). -/
theorem transact_prog {u : HostTxn} {s t : State} (h : transact u s = .next t) : t.prog = s.prog := by
  cases hr : u.isRead with
  | true =>
    obtain ⟨a, rfl⟩ := transact_next_of_isRead hr h
    exact s.answering_prog a
  | false =>
    replace h := transact_next h
    cases u with
    | reset => rw [h]
    | fill =>
      obtain ⟨-, -, rfl⟩ := h
      rfl
    | transportFail sel =>
      obtain ⟨-, rfl⟩ := h
      exact s.invalidate_prog sel
    | setAux | start | setTFine =>
      obtain ⟨-, rfl⟩ := h
      rfl
    | readStatus | readErrInfo | readField | readTFine => cases hr

/-- Settles O44: no transaction writes the program, and none of the sequencer's three effects does. -/
theorem programIsReadOnly : Obligations.ProgramIsReadOnly := by
  intro s t h
  obtain ⟨u, rest, -, hu⟩ | ⟨-, -, ⟨-, rfl⟩ | ⟨f, v, rfl⟩ | ⟨src, off, rfl⟩⟩ := step_cases h
  · exact (transact_prog hu).trans (s.afterTurn_prog rest)
  · rfl
  · rfl
  · rfl

/-- With `BUSY = 1` only `Reset` can write an input: the other transactions that do are refused, and those accepted in
RUN answer or set `T_FINE` (R51, R113). -/
theorem transact_inputs_of_busy {u : HostTxn} {s t : State} (hb : s.busy = true) (hu : u ≠ .reset)
    (h : transact u s = .next t) : t.buf = s.buf ∧ t.blen = s.blen ∧ t.aux = s.aux ∧ t.auxv = s.auxv := by
  cases hr : u.isRead with
  | true =>
    obtain ⟨a, rfl⟩ := transact_next_of_isRead hr h
    exact ⟨rfl, rfl, rfl, rfl⟩
  | false =>
    replace h := transact_next h
    cases u with
    | reset => exact absurd rfl hu
    | fill | setAux | transportFail | start =>
      have hidle : s.busy = false := h.1
      rw [hb] at hidle
      cases hidle
    | setTFine =>
      obtain ⟨-, rfl⟩ := h
      exact ⟨rfl, rfl, rfl, rfl⟩
    | readStatus | readErrInfo | readField | readTFine => cases hr

/-- Settles O46: in RUN the host writes an input at `Reset` alone, and the sequencer writes none. -/
theorem inputsAreStableDuringACycle : Obligations.InputsAreStableDuringACycle := by
  intro s t hb hreset h
  obtain ⟨u, rest, hag, hu⟩ | ⟨-, -, ⟨-, rfl⟩ | ⟨f, v, rfl⟩ | ⟨src, off, rfl⟩⟩ := step_cases h
  · have hne : u ≠ .reset := fun e => hreset rest (e ▸ hag)
    exact transact_inputs_of_busy (s := s.afterTurn rest) hb hne hu
  · exact ⟨rfl, rfl, rfl, rfl⟩
  · exact ⟨rfl, rfl, rfl, rfl⟩
  · exact ⟨rfl, rfl, rfl, rfl⟩

end Sys2Proof.Machine

/-! # The encoding: words, the decoder's table, the assembler and the check of a program

Proofs about `30_encoding.md`. First the five parts of a word, then what the decoder accepts, said once part by part
(`Op.Accepts`) and used for R67 as for R74, then the program check, then the assembler. -/

namespace Sys2Proof

/-! ## The parts of a word -/

/-- The `op` bits as a number (R61). -/
theorem opBits_toNat (w : Word) : (opBits w).toNat = w.toNat / 2 ^ 28 := by
  have hw := w.isLt
  rw [opBits, BitVec.extractLsb'_toNat, Nat.shiftRight_eq_div_pow]
  omega

/-- The `rd` bits as a number (R61). -/
theorem rdBits_toNat (w : Word) : (rdBits w).toNat = w.toNat / 2 ^ 23 % 32 := by
  rw [rdBits, BitVec.extractLsb'_toNat, Nat.shiftRight_eq_div_pow]

/-- The reserved bits as a number (R61). -/
theorem zBits_toNat (w : Word) : (zBits w).toNat = w.toNat / 2 ^ 16 % 128 := by
  rw [zBits, BitVec.extractLsb'_toNat, Nat.shiftRight_eq_div_pow]

/-- The `a` bits as a number (R61). -/
theorem aBits_toNat (w : Word) : (aBits w).toNat = w.toNat / 2 ^ 8 % 256 := by
  rw [aBits, BitVec.extractLsb'_toNat, Nat.shiftRight_eq_div_pow]

/-- The `b` bits as a number (R61). -/
theorem bBits_toNat (w : Word) : (bBits w).toNat = w.toNat % 256 := by
  rw [bBits, BitVec.extractLsb'_toNat, Nat.shiftRight_zero]

/-- The number of a word of format `M` (R61). -/
theorem wordM_toNat (op : BitVec 4) (rd : BitVec 5) (a b : Byte) :
    (wordM op rd a b).toNat = op.toNat * 2 ^ 28 + rd.toNat * 2 ^ 23 + a.toNat * 2 ^ 8 + b.toNat := by
  simp only [wordM, Machine.toNat_append_eq_mul_add, BitVec.toNat_ofNat]
  omega

/-- Two words are equal when their five parts are. -/
theorem Word.eq_iff_parts (w v : Word) :
    w = v ↔ opBits w = opBits v ∧ rdBits w = rdBits v ∧ zBits w = zBits v ∧ aBits w = aBits v ∧ bBits w = bBits v := by
  refine ⟨fun h => by simp [h], fun ⟨hop, hrd, hz, ha, hb⟩ => BitVec.eq_of_toNat_eq ?_⟩
  have hop := congrArg BitVec.toNat hop
  have hrd := congrArg BitVec.toNat hrd
  have hz := congrArg BitVec.toNat hz
  have ha := congrArg BitVec.toNat ha
  have hb := congrArg BitVec.toNat hb
  rw [opBits_toNat, opBits_toNat] at hop
  rw [rdBits_toNat, rdBits_toNat] at hrd
  rw [zBits_toNat, zBits_toNat] at hz
  rw [aBits_toNat, aBits_toNat] at ha
  rw [bBits_toNat, bBits_toNat] at hb
  omega

/-- A word whose reserved bits are zero is the word of format `M` of its other parts. -/
theorem wordM_parts {w : Word} (hz : zBits w = 0) : wordM (opBits w) (rdBits w) (aBits w) (bBits w) = w := by
  rw [Word.eq_iff_parts, opBits_wordM, rdBits_wordM, zBits_wordM, aBits_wordM, bBits_wordM, hz]
  exact ⟨rfl, rfl, rfl, rfl, rfl⟩

/-- The index bits of a field are its index. -/
@[simp] theorem Field.bits_toNat (f : Field) : f.bits.toNat = f.index := by
  have hf := f.index_lt
  rw [Field.bits, BitVec.toNat_ofNat, Nat.mod_eq_of_lt (by omega)]

/-- The index byte of an auxiliary register is its index. -/
@[simp] theorem AuxReg.byte_toNat (x : AuxReg) : x.byte.toNat = x.index := by
  cases x <;> rfl

/-- Settles O3: every encoding is a word of format `M`, whose number is that sum. -/
theorem encodedWordValue : Obligations.EncodedWordValue := by
  intro i
  cases i <;> simp only [encode, Machine.instrNumbers, wordM_toNat, Field.bits_toNat, AuxReg.byte_toNat] <;> rfl

/-- A value of `rd` that names a field is the field's index bits (R64). -/
theorem Field.ofIndex_eq_some {rd : BitVec 5} {f : Field} : Field.ofIndex rd.toNat = some f ↔ rd = f.bits := by
  refine ⟨fun h => BitVec.eq_of_toNat_eq ?_, fun h => h ▸ f.ofIndex_bits⟩
  have hnodup : Field.all.Nodup := by decide
  obtain ⟨_, hrd⟩ := List.getElem?_eq_some_iff.mp h
  obtain ⟨_, hf⟩ := List.getElem?_eq_some_iff.mp f.ofIndex_bits
  exact hnodup.getElem_inj_iff.mp (hrd.trans hf.symm)

/-- The indices 0 to 25 name fields (R64). -/
theorem Field.exists_bits {rd : BitVec 5} (h : rd.toNat ≤ 25) : ∃ f : Field, rd = f.bits := by
  have hlt : rd.toNat < Field.all.length := Nat.lt_succ_of_le h
  exact ⟨_, Field.ofIndex_eq_some.mp (List.getElem?_eq_getElem hlt)⟩

/-- A value of `a` that names an auxiliary register is the register's index byte (R62). -/
theorem AuxReg.ofByte_eq_some {a : Byte} {x : AuxReg} : AuxReg.ofByte a = some x ↔ a = x.byte := by
  refine ⟨fun h => BitVec.eq_of_toNat_eq ?_, fun h => h ▸ x.ofByte_byte⟩
  rw [AuxReg.byte_toNat]
  unfold AuxReg.ofByte at h
  split at h <;> cases h <;> assumption

/-- The indices 0 to 2 name auxiliary registers (R62). -/
theorem AuxReg.exists_byte {a : Byte} (h : a.toNat ≤ 2) : ∃ x : AuxReg, a = x.byte := by
  have hindex : a.toNat = AuxReg.aux0.index ∨ a.toNat = AuxReg.aux1.index ∨ a.toNat = AuxReg.aux2.index := by
    simp only [AuxReg.index]
    omega
  have hbyte : ∀ x : AuxReg, a.toNat = x.index → a = x.byte := fun x hx =>
    BitVec.eq_of_toNat_eq (hx.trans x.byte_toNat.symm)
  obtain hx | hx | hx := hindex
  · exact ⟨_, hbyte _ hx⟩
  · exact ⟨_, hbyte _ hx⟩
  · exact ⟨_, hbyte _ hx⟩

/-! ## What the decoder accepts -/

/-- The destination condition of R67: `rd` names a field bound to the operation. -/
theorem withDest_eq_ok {op : Op} {rd : BitVec 5} {k : Field → Except Reject Instr} {i : Instr} :
    withDest op rd k = .ok i ↔ ∃ f, rd = f.bits ∧ f.opOf = op ∧ k f = .ok i := by
  simp only [← Field.ofIndex_eq_some, withDest]
  split
  next h => simp [h]
  next f h =>
    simp only [h, Option.some.injEq, exists_eq_left']
    split
    next hop => simp [hop]
    next hop => simp [hop]

/-- The condition of R67 on an unused `b`. -/
theorem withZeroB_eq_ok {b : Byte} {k : Except Reject Instr} {i : Instr} :
    withZeroB b k = .ok i ↔ b = 0 ∧ k = .ok i := by
  unfold withZeroB
  split
  next h => simp only [h, true_and]
  next h => simp only [h, false_and, reduceCtorEq]

/-- The condition of R67 on an auxiliary index. -/
theorem withAux_eq_ok {a : Byte} {k : AuxReg → Except Reject Instr} {i : Instr} :
    withAux a k = .ok i ↔ ∃ x, a = x.byte ∧ k x = .ok i := by
  simp only [← AuxReg.ofByte_eq_some, withAux]
  split
  next h => simp [h]
  next x h => simp [h]

/-- A word decodes to `i` when `decodeWord` accepts it as `i`. -/
theorem decode_eq_some {w : Word} {i : Instr} : decode w = some i ↔ decodeWord w = .ok i := by
  unfold decode
  split
  next j h => simp [h]
  next r h => simp [h]

/-- A valid word is the encoding of what it decodes to. -/
theorem encode_of_decode {w : Word} {i : Instr} (h : decode w = some i) : encode i = w := by
  rw [decode_eq_some, decodeWord] at h
  split at h
  next => cases h
  next hz =>
    have hcode : BitVec.ofNat 4 (opBits w).toNat = opBits w := by simp
    rw [← wordM_parts (not_not.mp hz), ← hcode]
    split at h
    case h_1 e | h_2 e | h_5 e | h_6 e =>
      obtain ⟨f, hrd, -, ⟨⟩⟩ := withDest_eq_ok.mp h
      rw [e, hrd]
      rfl
    case h_3 e | h_4 e =>
      obtain ⟨f, hrd, -, hk⟩ := withDest_eq_ok.mp h
      obtain ⟨hb, ⟨⟩⟩ := withZeroB_eq_ok.mp hk
      rw [e, hrd, hb]
      rfl
    case h_7 e =>
      obtain ⟨f, hrd, -, hk⟩ := withDest_eq_ok.mp h
      obtain ⟨x, hx, ⟨⟩⟩ := withAux_eq_ok.mp hk
      rw [e, hrd, hx]
      rfl
    case h_8 e =>
      obtain ⟨f, hrd, -, hk⟩ := withDest_eq_ok.mp h
      obtain ⟨hb, hk⟩ := withZeroB_eq_ok.mp hk
      obtain ⟨x, hx, ⟨⟩⟩ := withAux_eq_ok.mp hk
      rw [e, hrd, hx, hb]
      rfl
    case h_9 e =>
      split at h
      next hzero =>
        obtain ⟨hrd, ha, hb⟩ := hzero
        cases h
        rw [e, hrd, ha, hb]
        rfl
      next => cases h
    case h_10 => cases h

/-- R67: the encoder is the inverse of the decoder on the well-formed micro-operations. -/
theorem decode_eq_some_iff_encode {w : Word} {i : Instr} : decode w = some i ↔ i.wf = true ∧ encode i = w := by
  refine ⟨fun h => ⟨wf_of_decode h, encode_of_decode h⟩, ?_⟩
  rintro ⟨hwf, rfl⟩
  exact decode_encode i hwf

/-- The number of an operation (R63). -/
def Op.code : Op → BitVec 4
  | .uword => 0x1
  | .sword => 0x2
  | .sbyte => 0x3
  | .ubyte => 0x4
  | .pk12l => 0x5
  | .pk12h => 0x6
  | .amsk => 0x7
  | .asbyte => 0x8
  | .endOp => 0xF

/-- Two operations with one number are one operation. -/
theorem Op.code_inj {op op' : Op} (h : op.code.toNat = op'.code.toNat) : op = op' := by
  revert h
  cases op <;> cases op' <;> decide

/-- The conditions of R67 on the parts of a word, for one operation. -/
structure Op.Accepts (op : Op) (w : Word) : Prop where
  /-- Condition 1. -/
  reserved : zBits w = 0
  /-- Condition 2. -/
  opcode : opBits w = op.code
  /-- Condition 3. -/
  endZero : op = .endOp → rdBits w = 0 ∧ aBits w = 0 ∧ bBits w = 0
  /-- Condition 4. -/
  dest : op ≠ .endOp → ∃ f : Field, rdBits w = f.bits ∧ f.opOf = op
  /-- Condition 5. -/
  zeroB : op = .sbyte ∨ op = .ubyte ∨ op = .asbyte → bBits w = 0
  /-- Condition 6. -/
  aux : op = .amsk ∨ op = .asbyte → ∃ x : AuxReg, aBits w = x.byte

/-- The `op` bits of an encoding are the number of its operation (R61, R63). -/
theorem opBits_encode (i : Instr) : opBits (encode i) = i.op.code := by
  cases i <;> exact opBits_wordM _ _ _ _

/-- The reserved bits of an encoding are zero (R61). -/
theorem zBits_encode (i : Instr) : zBits (encode i) = 0 := by
  cases i <;> exact zBits_wordM _ _ _ _

/-- The `rd` bits of an encoding name its destination (R64). -/
theorem rdBits_encode {i : Instr} {f : Field} (h : i.dest = some f) : rdBits (encode i) = f.bits := by
  cases i <;> cases h <;> exact rdBits_wordM _ _ _ _

/-- A well-formed micro-operation that is not `END` has a destination, bound to its operation (R66). -/
theorem Instr.exists_dest {i : Instr} (h : i.wf = true) (hne : i.op ≠ .endOp) :
    ∃ f, i.dest = some f ∧ f.opOf = i.op := by
  cases i with
  | endOp => exact absurd rfl hne
  | _ => exact ⟨_, rfl, of_decide_eq_true h⟩

/-- The encoding of a well-formed micro-operation meets the conditions of its operation. -/
theorem Instr.accepts_encode {i : Instr} (h : i.wf = true) : i.op.Accepts (encode i) where
  reserved := zBits_encode i
  opcode := opBits_encode i
  endZero hend := by
    cases i with
    | endOp => exact ⟨rdBits_wordM _ _ _ _, aBits_wordM _ _ _ _, bBits_wordM _ _ _ _⟩
    | _ => cases hend
  dest hne := by
    obtain ⟨f, hd, hop⟩ := Instr.exists_dest h hne
    exact ⟨f, rdBits_encode hd, hop⟩
  zeroB hop := by
    cases i with
    | sbyte | ubyte | asbyte => exact bBits_wordM _ _ _ _
    | _ => simp [Instr.op] at hop
  aux hop := by
    cases i with
    | amsk rd n | asbyte rd n => exact ⟨n, aBits_wordM _ _ _ _⟩
    | _ => simp [Instr.op] at hop

/-- A word that meets the conditions of an operation encodes a well-formed micro-operation of that operation. -/
theorem Op.Accepts.exists_encode {op : Op} {w : Word} (h : op.Accepts w) :
    ∃ i : Instr, (i.wf = true ∧ encode i = w) ∧ i.op = op := by
  obtain ⟨hz, hcode, hend, hdest, hb, haux⟩ := h
  rw [← wordM_parts hz, hcode]
  obtain rfl | hne := eq_or_ne op .endOp
  · obtain ⟨hrd, ha, hb⟩ := hend rfl
    exact ⟨.endOp, ⟨rfl, by rw [hrd, ha, hb]; rfl⟩, rfl⟩
  · obtain ⟨f, hrd, hop⟩ := hdest hne
    have hwf := decide_eq_true hop
    rw [hrd]
    cases op with
    | uword => exact ⟨.uword f _ _, ⟨hwf, rfl⟩, rfl⟩
    | sword => exact ⟨.sword f _ _, ⟨hwf, rfl⟩, rfl⟩
    | pk12l => exact ⟨.pk12l f _ _, ⟨hwf, rfl⟩, rfl⟩
    | pk12h => exact ⟨.pk12h f _ _, ⟨hwf, rfl⟩, rfl⟩
    | sbyte => exact ⟨.sbyte f _, ⟨hwf, by rw [hb (by simp)]; rfl⟩, rfl⟩
    | ubyte => exact ⟨.ubyte f _, ⟨hwf, by rw [hb (by simp)]; rfl⟩, rfl⟩
    | amsk =>
      obtain ⟨x, hx⟩ := haux (by simp)
      exact ⟨.amsk f x _, ⟨hwf, by rw [hx]; rfl⟩, rfl⟩
    | asbyte =>
      obtain ⟨x, hx⟩ := haux (by simp)
      exact ⟨.asbyte f x, ⟨hwf, by rw [hx, hb (by simp)]; rfl⟩, rfl⟩
    | endOp => exact absurd rfl hne

/-- What the decoder accepts as an operation is what meets the operation's conditions of R67. -/
theorem exists_decode_op_iff {w : Word} {op : Op} : (∃ i, decode w = some i ∧ i.op = op) ↔ op.Accepts w := by
  simp only [decode_eq_some_iff_encode]
  refine ⟨?_, Op.Accepts.exists_encode⟩
  rintro ⟨i, ⟨hwf, rfl⟩, rfl⟩
  exact Instr.accepts_encode hwf

/-- The list of op numbers is `OPOF` by index (R10, R63). -/
theorem opofNumbers_index (f : Field) : Machine.opofNumbers[f.index]? = some f.opOf.code.toNat := by
  cases f <;> rfl

/-- No field is bound to `END` (R66). -/
theorem Field.opOf_ne_endOp (f : Field) : f.opOf ≠ .endOp := by
  cases f <;> decide

/-- The six conditions of R67 on the parts of a word. -/
theorem validWord_iff_parts (w : Word) : Machine.validWord w.toNat ↔
    (zBits w).toNat = 0 ∧
    ((1 ≤ (opBits w).toNat ∧ (opBits w).toNat ≤ 8) ∨ (opBits w).toNat = 15) ∧
    ((opBits w).toNat = 15 → (rdBits w).toNat = 0 ∧ (aBits w).toNat = 0 ∧ (bBits w).toNat = 0) ∧
    ((opBits w).toNat ≤ 8 →
      (rdBits w).toNat ≤ 25 ∧ Machine.opofNumbers[(rdBits w).toNat]? = some (opBits w).toNat) ∧
    ((opBits w).toNat = 3 ∨ (opBits w).toNat = 4 ∨ (opBits w).toNat = 8 → (bBits w).toNat = 0) ∧
    ((opBits w).toNat = 7 ∨ (opBits w).toNat = 8 → (aBits w).toNat ≤ 2) := by
  rw [opBits_toNat, rdBits_toNat, zBits_toNat, aBits_toNat, bBits_toNat, Machine.validWord]

/-- A word that some operation accepts meets the six conditions of R67. -/
theorem Op.Accepts.validWord {op : Op} {w : Word} (h : op.Accepts w) : Machine.validWord w.toNat := by
  obtain ⟨hz, hcode, hend, hdest, hb, haux⟩ := h
  rw [validWord_iff_parts, hcode]
  refine ⟨by rw [hz]; rfl, by cases op <;> decide, fun e => ?_, fun e => ?_, fun e => ?_, fun e => ?_⟩
  · obtain rfl : op = .endOp := Op.code_inj e
    obtain ⟨hrd, ha, hb⟩ := hend rfl
    rw [hrd, ha, hb]
    exact ⟨rfl, rfl, rfl⟩
  · obtain ⟨f, hrd, hop⟩ := hdest (by rintro rfl; revert e; decide)
    rw [hrd, Field.bits_toNat, ← hop]
    exact ⟨Nat.le_of_lt_succ f.index_lt, opofNumbers_index f⟩
  · have hop : op = .sbyte ∨ op = .ubyte ∨ op = .asbyte :=
      e.imp (fun e => Op.code_inj e) (Or.imp (fun e => Op.code_inj e) fun e => Op.code_inj e)
    rw [hb hop]
    rfl
  · have hop : op = .amsk ∨ op = .asbyte :=
      e.imp (fun e => Op.code_inj e) fun e => Op.code_inj e
    obtain ⟨x, hx⟩ := haux hop
    rw [hx, AuxReg.byte_toNat]
    cases x <;> decide

/-- A word that meets the six conditions of R67 is accepted by the operation its `op` bits name. -/
theorem exists_accepts_of_validWord {w : Word} (h : Machine.validWord w.toNat) : ∃ op : Op, op.Accepts w := by
  obtain ⟨hz, hrange, hend, hdest, hb, haux⟩ := (validWord_iff_parts w).mp h
  have hz : zBits w = 0 := BitVec.eq_of_toNat_eq hz
  by_cases h15 : (opBits w).toNat = 15
  · obtain ⟨hrd, ha, hb⟩ := hend h15
    exact ⟨.endOp, hz, BitVec.eq_of_toNat_eq h15,
      fun _ => ⟨BitVec.eq_of_toNat_eq hrd, BitVec.eq_of_toNat_eq ha, BitVec.eq_of_toNat_eq hb⟩,
      fun hne => absurd rfl hne, by simp, by simp⟩
  · obtain ⟨hrd, hopof⟩ := hdest (by omega)
    obtain ⟨f, hf⟩ := Field.exists_bits hrd
    rw [hf, Field.bits_toNat, opofNumbers_index, Option.some.injEq] at hopof
    rw [← hopof] at hb haux
    refine ⟨f.opOf, hz, BitVec.eq_of_toNat_eq hopof.symm, fun e => absurd e f.opOf_ne_endOp, fun _ => ⟨f, hf, rfl⟩,
      fun e => BitVec.eq_of_toNat_eq (hb ?_), fun e => AuxReg.exists_byte (haux ?_)⟩
    · obtain e | e | e := e <;> simp [e, Op.code]
    · obtain e | e := e <;> simp [e, Op.code]

/-- Settles O2: the valid words are those that some operation accepts, and the encoder is the decoder's inverse. -/
theorem decodeIsBijectionOnValidWords : Obligations.DecodeIsBijectionOnValidWords := by
  refine ⟨fun w => ⟨fun ⟨i, hi⟩ => ?_, fun h => ?_⟩, fun w i => decode_eq_some_iff_encode⟩
  · exact (exists_decode_op_iff.mp ⟨i, hi, rfl⟩).validWord
  · obtain ⟨op, hop⟩ := exists_accepts_of_validWord h
    obtain ⟨i, hi, -⟩ := exists_decode_op_iff.mpr hop
    exact ⟨i, hi⟩

/-! ## The rows of the opcode table -/

/-- Masking a word masks each of its parts. -/
theorem parts_and (w v : Word) :
    opBits (w &&& v) = opBits w &&& opBits v ∧ rdBits (w &&& v) = rdBits w &&& rdBits v ∧
      zBits (w &&& v) = zBits w &&& zBits v ∧ aBits (w &&& v) = aBits w &&& aBits v ∧
      bBits (w &&& v) = bBits w &&& bBits v :=
  ⟨BitVec.extractLsb'_and, BitVec.extractLsb'_and, BitVec.extractLsb'_and, BitVec.extractLsb'_and,
    BitVec.extractLsb'_and⟩

/-- The word of a well-formed micro-operation is a candidate of its row (R74). -/
theorem candidate_encode {i : Instr} (h : i.wf = true) : i.op.candidate (encode i) = true := by
  refine decide_eq_true ?_
  cases i with
  | uword => exact Laws.TableBits.uword _ _ _ h
  | sword => exact Laws.TableBits.sword _ _ _ h
  | sbyte => exact Laws.TableBits.sbyte _ _ h
  | ubyte => exact Laws.TableBits.ubyte _ _ h
  | pk12l => exact Laws.TableBits.pk12l _ _ _ h
  | pk12h => exact Laws.TableBits.pk12h _ _ _ h
  | amsk => exact Laws.TableBits.amsk _ _ _ h
  | asbyte => exact Laws.TableBits.asbyte _ _ h
  | endOp => exact Laws.TableBits.endOp h

/-- Each row fixes all of the `op` bits and all of the reserved bits. -/
theorem Op.row_parts (op : Op) : opBits op.rowMask = BitVec.allOnes 4 ∧ opBits op.rowMatch = op.code ∧
    zBits op.rowMask = BitVec.allOnes 7 ∧ zBits op.rowMatch = 0 := by
  cases op <;> decide

/-- R74 part by part: a candidate has the row's `op`, no reserved bit, and what the row fixes of `rd`, `a` and `b`. -/
theorem Op.candidate_iff_parts {op : Op} {w : Word} : op.candidate w = true ↔
    opBits w = op.code ∧ rdBits w &&& rdBits op.rowMask = rdBits op.rowMatch ∧ zBits w = 0 ∧
      aBits w &&& aBits op.rowMask = aBits op.rowMatch ∧ bBits w &&& bBits op.rowMask = bBits op.rowMatch := by
  obtain ⟨hop, hrd, hz, ha, hb⟩ := parts_and w op.rowMask
  obtain ⟨hopMask, hopMatch, hzMask, hzMatch⟩ := op.row_parts
  rw [Op.candidate, decide_eq_true_iff, Word.eq_iff_parts, hop, hrd, hz, ha, hb, hopMask, hopMatch, hzMask, hzMatch,
    BitVec.and_allOnes, BitVec.and_allOnes]

/-- A byte under the mask 0xFC is zero only below 4. -/
theorem toNat_le_two_of_and_eq_zero {a : Byte} (h : a &&& 0xFC = 0) (hne : a ≠ 3) : a.toNat ≤ 2 := by
  revert a
  decide

/-- A candidate of a row with an allowed `rd` and an auxiliary index other than 3 meets the row's conditions of R67. -/
theorem Op.accepts_of_candidate {op : Op} {w : Word} (h : op.candidate w = true)
    (hdest : op ≠ .endOp → ∃ f, Field.ofIndex (rdBits w).toNat = some f ∧ f.opOf = op)
    (haux : op = .amsk ∨ op = .asbyte → aBits w ≠ 3) : op.Accepts w := by
  obtain ⟨hop, hrd, hz, ha, hb⟩ := Op.candidate_iff_parts.mp h
  refine ⟨hz, hop, ?_, fun hne => ?_, ?_, fun hop => ?_⟩
  · rintro rfl
    exact ⟨(BitVec.and_allOnes).symm.trans hrd, (BitVec.and_allOnes).symm.trans ha, (BitVec.and_allOnes).symm.trans hb⟩
  · obtain ⟨f, hf, hop⟩ := hdest hne
    exact ⟨f, Field.ofIndex_eq_some.mp hf, hop⟩
  · rintro (rfl | rfl | rfl) <;> exact (BitVec.and_allOnes).symm.trans hb
  · refine AuxReg.exists_byte (toNat_le_two_of_and_eq_zero ?_ (haux hop))
    obtain rfl | rfl := hop <;> exact ha

/-- Settles O4: a row's candidates that meet the two further conditions are what the row's operation accepts, and every
row fixes the `op` bits. -/
theorem tableRowsDecideTheMnemonic : Obligations.TableRowsDecideTheMnemonic := by
  refine ⟨fun w op => ⟨?_, fun ⟨hc, hdest, haux⟩ => ?_⟩, fun w op op' h h' => ?_⟩
  · rintro ⟨i, hi, rfl⟩
    obtain ⟨-, -, -, hdest, -, haux⟩ := exists_decode_op_iff.mp ⟨i, hi, rfl⟩
    obtain ⟨hwf, rfl⟩ := decode_eq_some_iff_encode.mp hi
    refine ⟨candidate_encode hwf, fun hne => ?_, fun hop => ?_⟩
    · obtain ⟨f, hf, hop⟩ := hdest hne
      exact ⟨f, Field.ofIndex_eq_some.mpr hf, hop⟩
    · obtain ⟨x, hx⟩ := haux hop
      rw [hx]
      cases x <;> decide
  · exact exists_decode_op_iff.mpr (Op.accepts_of_candidate hc hdest haux)
  · obtain ⟨hop, -⟩ := Op.candidate_iff_parts.mp h
    obtain ⟨hop', -⟩ := Op.candidate_iff_parts.mp h'
    exact Op.code_inj (congrArg BitVec.toNat (hop.symm.trans hop'))

/-- Settles O1: the decoder evaluated at each word. -/
theorem specWordsDecode : Obligations.SpecWordsDecode := by
  unfold Obligations.SpecWordsDecode
  decide

/-! ## The check of a whole program -/

/-- A program is built from exactly the lists of words that pass the check (R71). -/
theorem Program.exists_build_iff {ws : List Word} :
    (∃ p, Program.build ws = some p ∧ p.words = ws) ↔ ∃ p : Program, p.words = ws := by
  refine ⟨fun ⟨p, _, hp⟩ => ⟨p, hp⟩, ?_⟩
  rintro ⟨p, rfl⟩
  exact ⟨p, dif_pos p.ok, rfl⟩

/-- No word stands behind index 26 of a program (R70). -/
theorem Program.getElem?_words_eq_none (p : Program) {k : Nat} (hk : 26 < k) : p.words[k]? = none :=
  List.getElem?_eq_none (by rw [p.words_length]; exact hk)

/-- `END` stands at index 26 of a program and nowhere else (R70). -/
theorem Program.decode_eq_end_iff (p : Program) (k : Nat) : (p.words[k]?).bind decode = some .endOp ↔ k = 26 := by
  refine ⟨fun h => ?_, fun h => h ▸ p.decode_last⟩
  obtain hlt | heq | hgt := Nat.lt_trichotomy k 26
  · exact absurd h (p.decode_ne_end hlt)
  · exact heq
  · rw [p.getElem?_words_eq_none hgt] at h
    cases h

/-- A word with a destination stands before index 26 (R70). -/
theorem Program.lt_of_dest (p : Program) {k : Nat} {f : Field}
    (h : ((p.words[k]?).bind decode).bind Instr.dest = some f) : k < 26 := by
  by_contra hk
  obtain heq | hgt := Nat.eq_or_lt_of_not_lt hk
  · subst heq
    rw [p.decode_last] at h
    cases h
  · rw [p.getElem?_words_eq_none hgt] at h
    cases h

/-- Two words of a program with one destination are one word (R70). -/
theorem Program.dest_inj (p : Program) {j k : Nat} {f : Field}
    (hj : ((p.words[j]?).bind decode).bind Instr.dest = some f)
    (hk : ((p.words[k]?).bind decode).bind Instr.dest = some f) : j = k := by
  have hentry : ∀ n, ((p.words[n]?).bind decode).bind Instr.dest = some f → p.dests[n]? = some f := fun n hn => by
    rw [p.dests_getElem? (p.lt_of_dest hn), ← Option.bind_assoc, hn]
  obtain ⟨_, hj⟩ := List.getElem?_eq_some_iff.mp (hentry j hj)
  obtain ⟨_, hk⟩ := List.getElem?_eq_some_iff.mp (hentry k hk)
  exact p.dests_nodup.getElem_inj_iff.mp (hj.trans hk.symm)

/-- Settles O7: the 26 distinct destinations of a program are all the fields. -/
theorem everyFieldHasExactlyOneWord : Obligations.EveryFieldHasExactlyOneWord := by
  refine fun p f => ⟨?_, fun j k => p.dest_inj⟩
  obtain ⟨k, hk, hf⟩ := List.mem_iff_getElem.mp (p.mem_dests f)
  have hlt : k < 26 := p.dests_length ▸ hk
  obtain ⟨w, i, rd, hw, hi, hd, hop⟩ := p.extraction_at hlt
  have hrd : rd = f := by
    have hentry := p.dests_getElem? hlt
    rw [List.getElem?_eq_getElem hk, hf, hw, Option.bind_some, hi, Option.bind_some, hd] at hentry
    exact (Option.some.inj hentry).symm
  subst hrd
  exact ⟨k, i, hlt, by rw [hw, Option.bind_some, hi], hd, hop.symm⟩

/-- A micro-operation other than `END` has a destination (R62). -/
theorem Instr.dest_isSome {i : Instr} (h : i ≠ .endOp) : i.dest.isSome = true := by
  cases i with
  | endOp => exact absurd rfl h
  | _ => rfl

section Conditions

variable {ws : List Word} (hvalid : ∀ w ∈ ws, ∃ i, decode w = some i)
  (hend : ∀ k : Nat, (ws[k]?).bind decode = some .endOp ↔ k = 26)
  (hinj : ∀ (j k : Nat) (f : Field), j < 26 → k < 26 → ((ws[j]?).bind decode).bind Instr.dest = some f →
    ((ws[k]?).bind decode).bind Instr.dest = some f → j = k)

include hend

/-- What condition 3 of R70 says of the words before index 26: none of them is `END`. -/
theorem decode_ne_end_of_mem_take {w : Word} (hw : w ∈ ws.take 26) : decode w ≠ some .endOp := fun h => by
  obtain ⟨k, hk, rfl⟩ := List.mem_take_iff_getElem.mp hw
  have hk26 := (hend k).mp (by rw [List.getElem?_eq_getElem (by omega), Option.bind_some, h])
  omega

include hvalid hinj

/-- Words 0 to 25 with no destination twice have pairwise distinct destinations (R70). -/
theorem nodup_destsOf_take : (destsOf (ws.take 26)).Nodup := by
  have hdest : ∀ w ∈ ws.take 26, ((decode w).bind Instr.dest).isSome = true := fun w hw => by
    obtain ⟨i, hi⟩ := hvalid w (List.mem_of_mem_take hw)
    have hne : i ≠ .endOp := fun e => decode_ne_end_of_mem_take hend hw (e ▸ hi)
    rw [hi, Option.bind_some, Instr.dest_isSome hne]
  have hlen : (destsOf (ws.take 26)).length ≤ 26 :=
    (List.length_filterMap_le _ _).trans (List.length_take_le _ _)
  have hentry : ∀ k < 26, (destsOf (ws.take 26))[k]? = ((ws[k]?).bind decode).bind Instr.dest := fun k hk => by
    rw [destsOf_getElem? _ hdest, List.getElem?_take_of_lt hk, ← Option.bind_assoc]
  rw [List.nodup_iff_getElem?_ne_getElem?]
  intro j k hjk hk heq
  have hk26 : k < 26 := by omega
  have hf := List.getElem?_eq_getElem hk
  rw [hf, hentry j (by omega)] at heq
  rw [hentry k hk26] at hf
  exact absurd (hinj j k _ (by omega) hk26 heq hf) (Nat.ne_of_lt hjk)

/-- The four conditions of R70 are all that the check asks. -/
theorem programOk_of_conditions (hlen : ws.length = 27) : programOk ws = true := by
  simp only [programOk, has27Words, allWordsValid, endOnlyLast, destsDistinct, Bool.and_eq_true, beq_iff_eq,
    List.all_eq_true, decide_eq_true_eq, Option.isSome_iff_exists]
  exact ⟨⟨⟨hlen, hvalid⟩, (hend 26).mpr rfl, fun w => decode_ne_end_of_mem_take hend⟩,
    nodup_destsOf_take hvalid hend hinj⟩

end Conditions

/-- Settles O6: a program meets the four conditions, and they are all that the check asks. -/
theorem buildAcceptsExactlyWellFormedPrograms : Obligations.BuildAcceptsExactlyWellFormedPrograms := by
  intro ws
  rw [Program.exists_build_iff]
  refine ⟨?_, fun ⟨hlen, hvalid, hend, hinj⟩ => ⟨⟨ws, programOk_of_conditions hvalid hend hinj hlen⟩, rfl⟩⟩
  rintro ⟨p, rfl⟩
  exact ⟨p.words_length, fun w hw => Option.isSome_iff_exists.mp (p.decode_isSome hw), p.decode_eq_end_iff,
    fun j k f _ _ => p.dest_inj⟩

end Sys2Proof

namespace Sys2Proof.Machine

open Sys2Proof

/-! ## The assembler -/

/-- What a mnemonic and its operands stand for when both are read. -/
theorem assembleParts_eq_asmForm {mnemonic t : List Char} {ts : List (List Char)} {op : Op} {i : Instr}
    (hm : parseMnemonic mnemonic = some op) (hi : parseOperands op (t :: ts) = some i) :
    assembleParts mnemonic (t :: ts) = asmForm i := by
  rw [assembleParts, if_neg (fun h => List.cons_ne_nil _ _ h.2), hm, asmForm]
  simp only [hi]

/-- Parts that stand for a micro-operation stand for a well-formed one. -/
theorem wf_of_assembleParts {mnemonic : List Char} {operands : List (List Char)} {i : Instr}
    (h : assembleParts mnemonic operands = .instr i) : i.wf = true := by
  unfold assembleParts at h
  split at h
  · cases h
  · split at h
    · cases h
    · split at h
      · cases h
      · split at h
        next hwf =>
          cases h
          exact hwf
        next => cases h

/-- A line that stands for a micro-operation stands for a well-formed one. -/
theorem wf_of_assembleLine {line : List Char} {i : Instr} (h : assembleLine line = .instr i) : i.wf = true := by
  simp only [assembleLine] at h
  split at h
  · cases h
  · exact wf_of_assembleParts h

/-- The text before the first semicolon is the same with and without a comment behind the line. -/
theorem takeWhile_comment (line comment : List Char) :
    (line ++ ';' :: comment).takeWhile (fun c => decide (c ≠ ';')) = line.takeWhile fun c => decide (c ≠ ';') := by
  induction line with
  | nil => rfl
  | cons c cs ih => simp only [List.cons_append, List.takeWhile_cons, ih]

/-- A comment is ignored (R72). -/
theorem assembleLine_comment (line comment : List Char) :
    assembleLine (line ++ ';' :: comment) = assembleLine line := by
  simp only [assembleLine, takeWhile_comment]

/-- A line of a mnemonic and at least one operand, all of them read, stands for the micro-operation they give. -/
theorem assembleLine_eq_asmForm (op : Op) (m n : Nat) {mnemonic : String} {t : List Char} {ts : List (List Char)}
    {i : Instr} (hm : isToken mnemonic.toList = true) (hop : parseMnemonic mnemonic.toList = some op)
    (hts : ∀ u ∈ t :: ts, IsToken u) (hi : parseOperands op (t :: ts) = some i) :
    assembleLine (asmText m n mnemonic (t :: ts)) = asmForm i := by
  rw [assembleLine_asmText m n mnemonic t ts (.of_check hm) hts, assembleParts_eq_asmForm hop hi]

/-- A line of each of the eight extraction mnemonics, with the texts of its operands, stands for that extraction if its
field is bound to the mnemonic (R66, R72). -/
theorem assembleLine_forms (m n : Nat) (f : Field) (x : AuxReg) {a b : Byte} {ta tb : List Char}
    (hta : ta ∈ numberTexts a) (htb : tb ∈ numberTexts b) :
    assembleLine (asmText m n "UWORD" [f.name.toList, ta, tb]) = asmForm (.uword f a b) ∧
    assembleLine (asmText m n "SWORD" [f.name.toList, ta, tb]) = asmForm (.sword f a b) ∧
    assembleLine (asmText m n "SBYTE" [f.name.toList, ta]) = asmForm (.sbyte f a) ∧
    assembleLine (asmText m n "UBYTE" [f.name.toList, ta]) = asmForm (.ubyte f a) ∧
    assembleLine (asmText m n "PK12L" [f.name.toList, ta, tb]) = asmForm (.pk12l f a b) ∧
    assembleLine (asmText m n "PK12H" [f.name.toList, ta, tb]) = asmForm (.pk12h f a b) ∧
    assembleLine (asmText m n "AMSK" [f.name.toList, auxText x, tb]) = asmForm (.amsk f x b) ∧
    assembleLine (asmText m n "ASBYTE" [f.name.toList, auxText x]) = asmForm (.asbyte f x) := by
  obtain ⟨hf, hfield⟩ := name_spec f
  obtain ⟨hx, haux⟩ := auxText_spec x
  obtain ⟨ha, hbyteA⟩ := numberTexts_spec hta
  obtain ⟨hb, hbyteB⟩ := numberTexts_spec htb
  have hfab : ∀ u ∈ [f.name.toList, ta, tb], IsToken u := by simp [hf, ha, hb]
  have hfa : ∀ u ∈ [f.name.toList, ta], IsToken u := by simp [hf, ha]
  have hfxb : ∀ u ∈ [f.name.toList, auxText x, tb], IsToken u := by simp [hf, hx, hb]
  have hfx : ∀ u ∈ [f.name.toList, auxText x], IsToken u := by simp [hf, hx]
  refine ⟨assembleLine_eq_asmForm .uword m n (by decide) (by decide) hfab ?_,
    assembleLine_eq_asmForm .sword m n (by decide) (by decide) hfab ?_,
    assembleLine_eq_asmForm .sbyte m n (by decide) (by decide) hfa ?_,
    assembleLine_eq_asmForm .ubyte m n (by decide) (by decide) hfa ?_,
    assembleLine_eq_asmForm .pk12l m n (by decide) (by decide) hfab ?_,
    assembleLine_eq_asmForm .pk12h m n (by decide) (by decide) hfab ?_,
    assembleLine_eq_asmForm .amsk m n (by decide) (by decide) hfxb ?_,
    assembleLine_eq_asmForm .asbyte m n (by decide) (by decide) hfx ?_⟩
  all_goals simp [parseOperands, hfield, haux, hbyteA, hbyteB]

/-- `LOADCAL` stands for the canonical program (R73). -/
theorem assemble_loadcal (o : OffsetMap) (rangeMask errorMask : Byte) :
    assemble o rangeMask errorMask ["LOADCAL".toList] = some (calprog o rangeMask errorMask).words := by
  have hline : assembleLine "LOADCAL".toList = .loadcal := by decide
  simp only [assemble, hline, List.append_nil]
  rfl

/-- A line that stands for a micro-operation adds its word (R72). -/
theorem assemble_cons_instr (o : OffsetMap) (rangeMask errorMask : Byte) {line : List Char} {i : Instr}
    (lines : List (List Char)) (h : assembleLine line = .instr i) :
    assemble o rangeMask errorMask (line :: lines) =
      (assemble o rangeMask errorMask lines).map fun words => encode i :: words := by
  simp only [assemble, h]
  cases assemble o rangeMask errorMask lines <;> rfl

/-- Settles O5: only well-formed micro-operations pass the last check of a line, and the texts of the eight forms are
tokens that read as their operands. -/
theorem assembledLineIsWellFormed : Obligations.AssembledLineIsWellFormed := by
  refine ⟨fun line i h => ?_, assembleLine_comment, fun m n f x a b ta hta tb htb => assembleLine_forms m n f x hta htb,
    by decide, fun o rangeMask errorMask => ⟨assemble_loadcal o rangeMask errorMask, fun line i lines h => ?_⟩⟩
  · have hwf := wf_of_assembleLine h
    exact ⟨hwf, decode_encode i hwf⟩
  · exact assemble_cons_instr o rangeMask errorMask lines h

end Sys2Proof.Machine

/-! # The codec: sign extension, words, nibbles and masks

Proofs about `40_codec_primitives.md`. The codec's functions are the library's operations on bit vectors: `signExtend` is
the two's-complement value, an assembled word the concatenation of its bytes. The ranges, the signs and the inverses are
then the library's. -/

namespace Sys2Proof.Machine

open Sys2Proof

/-! ## Sign extension -/

/-- `sign_extend` is the two's-complement value, at every width (R80). -/
theorem signExtend_eq_toInt {n : Nat} (v : BitVec n) : signExtend v = v.toInt := by
  cases n with
  | zero => rw [BitVec.of_length_zero (x := v)]; rfl
  | succ k =>
    have hcast : (2 : Int) ^ (k + 1) = (2 ^ (k + 1) : Nat) := by norm_cast
    rw [signExtend, BitVec.toInt_eq_toNat_cond, Nat.add_sub_cancel, hcast]
    split <;> split <;> omega

/-- The two cases of `sign_extend`, by the top bit (R80). -/
theorem signExtend_eq_ite_getLsbD {n : Nat} (v : BitVec n) :
    signExtend v = if v.getLsbD (n - 1) then (v.toNat : Int) - 2 ^ n else v.toNat := by
  rw [signExtend_eq_toInt, BitVec.toInt_eq_msb_cond, BitVec.msb_eq_getLsbD_last, Nat.cast_pow, Nat.cast_ofNat]

/-- A sign-extended value lies in the signed range of its width (R80). -/
theorem signExtend_mem_range {n : Nat} (v : BitVec n) :
    -(2 : Int) ^ (n - 1) ≤ signExtend v ∧ signExtend v ≤ 2 ^ (n - 1) - 1 := by
  rw [signExtend_eq_toInt]
  exact ⟨BitVec.le_toInt v, Int.le_sub_one_of_lt BitVec.toInt_lt⟩

/-- The bits of a sign-extended value are the bits it was read from (R80). -/
@[simp] theorem bitsN_signExtend {n : Nat} (v : BitVec n) : bitsN n (signExtend v) = v := by
  rw [signExtend_eq_toInt, bitsN, BitVec.ofInt_toInt]

/-- Every integer of the signed range is the sign extension of its bits (R80). -/
theorem signExtend_bitsN {n : Nat} {z : Int} (hn : 1 ≤ n) (hlo : -(2 : Int) ^ (n - 1) ≤ z) (hhi : z ≤ 2 ^ (n - 1) - 1) :
    signExtend (bitsN n z) = z := by
  rw [signExtend_eq_toInt, bitsN, BitVec.toInt_ofInt_eq_self hn hlo (Int.lt_of_le_sub_one hhi)]

/-- The bits of an integer are its residue modulo `2^n` (R6). -/
theorem bitsN_toNat (n : Nat) (z : Int) : ((bitsN n z).toNat : Int) = z % 2 ^ n := by
  have hpos : (0 : Int) < 2 ^ n := by positivity
  rw [bitsN, BitVec.toNat_ofInt, Nat.cast_pow, Nat.cast_ofNat, Int.toNat_of_nonneg (Int.emod_nonneg z hpos.ne')]

/-- Settles O10: `sign_extend` is the two's-complement value, and `bitsN` its inverse on the signed range. -/
theorem signExtendContract : Obligations.SignExtendContract := by
  refine ⟨fun n v _ => ?_, fun n z hn hlo hhi => ⟨bitsN n z, signExtend_bitsN hn hlo hhi, bitsN_toNat n z⟩, by decide⟩
  obtain ⟨hlo, hhi⟩ := signExtend_mem_range v
  have hcases := signExtend_eq_ite_getLsbD v
  exact ⟨fun hset => by rw [hcases, if_pos hset], fun hclear => by rw [hcases, hclear, if_neg Bool.false_ne_true],
    hlo, hhi, signExtend_eq_toInt v, bitsN_signExtend v⟩

/-! ## Assembled words -/

/-- An assembled word is the number of its two bytes side by side (R82). -/
theorem assembledWord_eq_toNat (m l : Byte) : assembledWord m l = (m ++ l).toNat :=
  (BitVec.toNat_append m l).symm

/-- Unsigned assembly reads the concatenation as a natural number (R82). -/
theorem assembleWord_false (m l : Byte) : assembleWord m l false = (m ++ l : BitVec 16).toNat := by
  rw [assembleWord, if_neg Bool.false_ne_true, assembledWord_eq_toNat]

/-- Signed assembly reads the concatenation as a two's-complement number (R82). -/
theorem assembleWord_true (m l : Byte) : assembleWord m l true = signExtend (m ++ l : BitVec 16) := by
  rw [assembleWord, if_pos rfl, assembledWord_eq_toNat, BitVec.ofNat_toNat, BitVec.setWidth_eq]

/-- Signed assembly is negative exactly when the top bit of the most significant byte is set (R82). -/
theorem assembleWord_true_neg_iff (m l : Byte) : assembleWord m l true < 0 ↔ 0x80 ≤ m.toNat := by
  have hl := l.isLt
  rw [assembleWord_true, signExtend_eq_toInt, BitVec.toInt_neg_iff, toNat_append_eq_mul_add]
  omega

/-- The two bytes of a word, put side by side, are the word (R84). -/
theorem bytes_append (w : BitVec 16) : w.extractLsb' 8 8 ++ w.extractLsb' 0 8 = w :=
  (BitVec.extractLsb'_append_extractLsb'_eq_extractLsb' rfl).trans BitVec.extractLsb'_eq_self

/-- The bytes of a signed value are determined by it: both are read off the value's bits (R84). -/
theorem assembleWord_true_inj {m l m' l' : Byte} (h : assembleWord m' l' true = assembleWord m l true) :
    m' = m ∧ l' = l := by
  rw [assembleWord_true, assembleWord_true] at h
  have hbits : (m' ++ l' : BitVec 16) = m ++ l := by rw [← bitsN_signExtend (m' ++ l'), h, bitsN_signExtend]
  have hmsb := congrArg (BitVec.extractLsb' 8 8) hbits
  have hlsb := congrArg (BitVec.extractLsb' 0 8) hbits
  exact ⟨by rwa [BitVec.extractLsb'_append_eq_left, BitVec.extractLsb'_append_eq_left] at hmsb,
    by rwa [BitVec.extractLsb'_append_eq_right, BitVec.extractLsb'_append_eq_right] at hlsb⟩

/-- Every signed 16-bit value is assembled from the two bytes of its bits (R84). -/
theorem assembleWord_true_bytes {z : Int} (hlo : -32768 ≤ z) (hhi : z ≤ 32767) :
    assembleWord ((bitsN 16 z).extractLsb' 8 8) ((bitsN 16 z).extractLsb' 0 8) true = z := by
  rw [assembleWord_true, bytes_append, signExtend_bitsN (by decide) hlo hhi]

/-- Settles O11: unsigned and signed assembly read the same 16 bits, the concatenation of the two bytes. -/
theorem assembleWordContract : Obligations.AssembleWordContract := by
  refine ⟨fun m l => ?_, fun w => by rw [assembleWord_false, bytes_append], fun z hlo hhi => ?_⟩
  · have hl := l.isLt
    have hm := m.isLt
    have hval : assembleWord m l false = 256 * (m.toNat : Int) + l.toNat := by
      rw [assembleWord_false, toNat_append_eq_mul_add]
      omega
    obtain ⟨hlo, hhi⟩ := signExtend_mem_range (m ++ l : BitVec 16)
    rw [← assembleWord_true] at hlo hhi
    exact ⟨hval, rfl, by omega, assembleWord_true m l, hlo, hhi, assembleWord_true_neg_iff m l,
      by rw [assembleWord_false, bitsN, BitVec.ofInt_natCast, BitVec.ofNat_toNat, BitVec.setWidth_eq],
      by rw [assembleWord_true, bitsN_signExtend], by omega, by omega⟩
  · have hz := assembleWord_true_bytes hlo hhi
    exact ⟨_, _, hz, fun m' l' h => assembleWord_true_inj (h.trans hz.symm)⟩

/-! ## Nibbles, packing and masks -/

/-- The low nibble is the remainder by 16 (R85). -/
theorem lo4_eq_mod (x : Byte) : lo4 x = x.toNat % 16 := Nat.and_two_pow_sub_one_eq_mod x.toNat 4

/-- The high nibble is the quotient by 16 (R85). -/
theorem hi4_eq_div (x : Byte) : hi4 x = x.toNat / 16 := Nat.shiftRight_eq_div_pow x.toNat 4

/-- The high nibble on bits (R85). -/
theorem ofNat_hi4 (x : Byte) : BitVec.ofNat 4 (hi4 x) = x.extractLsb' 4 4 := rfl

/-- A packed value puts the nibble below the byte (R86). -/
theorem pack12_eq_mul_add (m : Byte) {nib : Nat} (hnib : nib < 16) : pack12 m nib = 16 * m.toNat + nib := by
  have hor : m.toNat <<< 4 + nib = pack12 m nib := Nat.shiftLeft_add_eq_or_of_lt hnib m.toNat
  rw [← hor, Nat.shiftLeft_eq, Nat.mul_comm]

/-- A packed value on bits: the byte, then the nibble (R86). -/
theorem ofNat_pack12 (m : Byte) {nib : Nat} (hnib : nib < 16) :
    BitVec.ofNat 12 (pack12 m nib) = (m ++ BitVec.ofNat 4 nib : BitVec 12) := by
  apply BitVec.eq_of_toNat_eq
  rw [BitVec.toNat_ofNat, Nat.mod_eq_of_lt (pack12_lt m hnib), pack12_eq_mul_add m hnib, toNat_append_eq_mul_add,
    BitVec.toNat_ofNat, Nat.mod_eq_of_lt hnib]
  omega

/-- The shift drops the low nibble of the mask: only the high nibbles meet (R87). -/
theorem maskShift_eq_hi4_and_hi4 (raw mask : Byte) : maskShift raw mask = hi4 raw &&& hi4 mask :=
  Nat.shiftRight_and_distrib

/-- Settles O12: the shifts by 4 are quotients by 16, and both ORs and ANDs act on the nibbles apart. -/
theorem nibbleAndMaskLaws : Obligations.NibbleAndMaskLaws := by
  refine ⟨fun x => ?_, fun m nib h => ?_, fun raw mask => ?_⟩
  · have hdecomp : x.toNat = 16 * hi4 x + lo4 x := by rw [hi4_eq_div, lo4_eq_mod, Nat.div_add_mod]
    exact ⟨lo4_eq_mod x, hi4_eq_div x, Nat.le_of_lt_succ (lo4_lt x), Nat.le_of_lt_succ (hi4_lt x), hdecomp⟩
  · have hnib : nib < 16 := Nat.lt_succ_of_le h
    exact ⟨pack12_eq_mul_add m hnib, Nat.le_of_lt_succ (pack12_lt m hnib), ofNat_pack12 m hnib⟩
  · have hbits : BitVec.ofNat 4 (maskShift raw mask) = raw.extractLsb' 4 4 &&& mask.extractLsb' 4 4 := by
      rw [maskShift_eq_hi4_and_hi4, BitVec.ofNat_and, ofNat_hi4, ofNat_hi4]
    exact ⟨Nat.shiftRight_eq_div_pow _ 4, Nat.le_of_lt_succ (maskShift_lt raw mask), maskShift_eq_hi4_and_hi4 raw mask,
      hbits⟩

end Sys2Proof.Machine

/-! # Block extraction: words and bytes from the buffer

Proofs about `41_block_extract.md`. First the rules of a buffer read and of the two shapes of an extraction, for any
operation and any value; then what a register of the destination's width holds of a value; then the four operations,
each of which only adds its word, its destinations and its value. -/

namespace Sys2Proof.Machine

open Sys2Proof

/-! ## The two shapes of a buffer extraction -/

section Extract

variable {s : State} {op : Op} {rd : Field} {a b : Byte}

/-- A read inside `BLEN` gives the byte held there (R43). -/
theorem bufRead_of_lt {x : Byte} (ha : a.toNat < s.blen.toNat) (hx : s.buf.read a.toNat = some x) :
    bufRead a s = .byte x := by
  rw [bufRead, if_neg (Nat.not_le_of_lt ha), hx, ReadResult.ofStorage]

/-- A read at or beyond `BLEN` raises (R43). -/
theorem bufRead_of_le (ha : s.blen.toNat ≤ a.toNat) : bufRead a s = .malformed .buffer a :=
  if_pos ha

/-- A two-byte extraction whose offsets are both below `BLEN` stages its value. -/
theorem extractPair_of_lt {value : Byte → Byte → Int} {m l : Byte} (hop : rd.opOf = op) (ha : a.toNat < s.blen.toNat)
    (hb : b.toNat < s.blen.toNat) (hm : s.buf.read a.toNat = some m) (hl : s.buf.read b.toNat = some l) :
    extractPair op rd a b value s = .next (s.stage rd (bitsN rd.width (value m l))).advance := by
  rw [extractPair, bound, if_pos hop, bufRead_of_lt ha hm, withByte, bufRead_of_lt hb hl, withByte, finish]

/-- A two-byte extraction whose first offset is at or beyond `BLEN` aborts for it (R146, R147). -/
theorem extractPair_aborts_first {value : Byte → Byte → Int} (hop : rd.opOf = op) (ha : s.blen.toNat ≤ a.toNat) :
    ∃ t, extractPair op rd a b value s = .next t ∧ AbortedFrom s .buffer a t := by
  refine ⟨_, ?_, s.abort_abortedFrom .buffer a⟩
  rw [extractPair, bound, if_pos hop, bufRead_of_le ha, withByte]

/-- A two-byte extraction whose second offset alone is at or beyond `BLEN` aborts for that one (R146, R147). -/
theorem extractPair_aborts_second {value : Byte → Byte → Int} {m : Byte} (hop : rd.opOf = op)
    (ha : a.toNat < s.blen.toNat) (hm : s.buf.read a.toNat = some m) (hb : s.blen.toNat ≤ b.toNat) :
    ∃ t, extractPair op rd a b value s = .next t ∧ AbortedFrom s .buffer b t := by
  refine ⟨_, ?_, s.abort_abortedFrom .buffer b⟩
  rw [extractPair, bound, if_pos hop, bufRead_of_lt ha hm, withByte, bufRead_of_le hb, withByte]

/-- A one-byte extraction whose offset is below `BLEN` stages its value. -/
theorem extractByte_of_lt {value : Byte → Int} {x : Byte} (hop : rd.opOf = op) (ha : a.toNat < s.blen.toNat)
    (hx : s.buf.read a.toNat = some x) :
    extractByte op rd a value s = .next (s.stage rd (bitsN rd.width (value x))).advance := by
  rw [extractByte, bound, if_pos hop, bufRead_of_lt ha hx, withByte, finish]

/-- A one-byte extraction whose offset is at or beyond `BLEN` aborts for it (R147). -/
theorem extractByte_aborts {value : Byte → Int} (hop : rd.opOf = op) (ha : s.blen.toNat ≤ a.toNat) :
    ∃ t, extractByte op rd a value s = .next t ∧ AbortedFrom s .buffer a t := by
  refine ⟨_, ?_, s.abort_abortedFrom .buffer a⟩
  rw [extractByte, bound, if_pos hop, bufRead_of_le ha, withByte]

end Extract

/-! ## What a register holds of a value -/

/-- The bits of a vector read as a natural number are the vector (R6). -/
@[simp] theorem bitsN_natCast_toNat {n : Nat} (w : BitVec n) : bitsN n (w.toNat : Int) = w := by
  rw [bitsN, BitVec.ofInt_natCast, BitVec.ofNat_toNat, BitVec.setWidth_eq]

/-- The bits of a value in a register of width `n` are the value's `n` bits. -/
theorem setWidth_bitsN_width {f : Field} {n : Nat} (hw : f.width = n) (z : Int) :
    (bitsN f.width z).setWidth n = bitsN n z := by
  subst hw
  exact BitVec.setWidth_eq _

/-- A signed register holds the two's-complement value of a vector of its width (R11). -/
theorem val_bitsN_signExtend {f : Field} {n : Nat} (hw : f.width = n) (hs : f.ty.signed = true) (w : BitVec n) :
    f.val (bitsN f.width (signExtend w)) = signExtend w := by
  subst hw
  rw [bitsN_signExtend, Field.val, if_pos hs, signExtend_eq_toInt]

/-- An unsigned register holds the unsigned value of a vector of its width (R11). -/
theorem val_bitsN_toNat {f : Field} {n : Nat} (hw : f.width = n) (hs : f.ty.signed = false) (w : BitVec n) :
    f.val (bitsN f.width (w.toNat : Int)) = w.toNat := by
  subst hw
  rw [bitsN_natCast_toNat, Field.val, hs, if_neg Bool.false_ne_true]

/-- Unsigned assembly as a number (R82). -/
theorem assembleWord_false_eq_mul_add (m l : Byte) : assembleWord m l false = 256 * (m.toNat : Int) + l.toNat := by
  rw [assembleWord_false, toNat_append_eq_mul_add]
  omega

/-- Signed assembly as a number: 65536 less than unsigned assembly when the top bit of `m` is set (R82). -/
theorem assembleWord_true_eq_sub (m l : Byte) :
    assembleWord m l true = 256 * m.toNat + l.toNat - (if 0x80 ≤ m.toNat then 65536 else 0) := by
  have hl := l.isLt
  rw [assembleWord_true, signExtend, toNat_append_eq_mul_add]
  split <;> split <;> omega

/-- Sign extension of a byte as a number (R80). -/
theorem signExtend_byte_eq_sub (x : Byte) : signExtend x = (x.toNat : Int) - (if 0x80 ≤ x.toNat then 256 else 0) := by
  rw [signExtend]
  split <;> split <;> omega

/-! ## The four operations -/

/-- The destinations of `UWORD` are unsigned words bound to it (R10). -/
theorem uword_dest : ∀ rd ∈ [Field.par_t1, .par_p1], rd.opOf = .uword ∧ rd.ty.signed = false ∧ rd.width = 16 := by
  decide

/-- The destinations of `SWORD` are signed words bound to it (R10). -/
theorem sword_dest : ∀ rd ∈ [Field.par_t2, .par_p2, .par_p4, .par_p5, .par_p8, .par_p9, .par_gh2],
    rd.opOf = .sword ∧ rd.ty.signed = true ∧ rd.width = 16 := by
  decide

/-- The destinations of `SBYTE` are signed bytes bound to it (R10). -/
theorem sbyte_dest : ∀ rd ∈ [Field.par_t3, .par_p3, .par_p6, .par_p7, .par_h3, .par_h4, .par_h5, .par_h7, .par_gh1,
    .par_gh3], rd.opOf = .sbyte ∧ rd.ty.signed = true ∧ rd.width = 8 := by
  decide

/-- The destinations of `UBYTE` are unsigned bytes bound to it (R10). -/
theorem ubyte_dest : ∀ rd ∈ [Field.par_p10, .par_h6], rd.opOf = .ubyte ∧ rd.ty.signed = false ∧ rd.width = 8 := by
  decide

/-- Settles O14: a two-byte extraction into an unsigned word, which holds the concatenation of the bytes as a natural
number. -/
theorem uwordStagesUnsignedWord : Obligations.UwordStagesUnsignedWord := by
  intro s rd a b h
  obtain ⟨hop, hs, hw⟩ := uword_dest rd h
  refine ⟨by simp [encode, wordM_toNat], fun m l ha hb hm hl => ?_, extractPair_aborts_first hop,
    fun m ha hm => extractPair_aborts_second hop ha hm⟩
  refine ⟨bitsN rd.width (assembleWord m l false), hw, ?_, ?_, extractPair_of_lt hop ha hb hm hl⟩
  · rw [setWidth_bitsN_width hw, assembleWord_false, bitsN_natCast_toNat]
  · rw [← assembleWord_false_eq_mul_add, assembleWord_false, val_bitsN_toNat hw hs]

/-- Settles O15: a two-byte extraction into a signed word, which holds the same concatenation as a two's-complement
number. -/
theorem swordStagesSignedWord : Obligations.SwordStagesSignedWord := by
  intro s rd a b h
  obtain ⟨hop, hs, hw⟩ := sword_dest rd h
  refine ⟨by simp [encode, wordM_toNat], fun m l ha hb hm hl => ?_, extractPair_aborts_first hop,
    fun m ha hm => extractPair_aborts_second hop ha hm⟩
  refine ⟨bitsN rd.width (assembleWord m l true), hw, ?_, ?_, extractPair_of_lt hop ha hb hm hl⟩
  · rw [setWidth_bitsN_width hw, assembleWord_true, bitsN_signExtend]
  · rw [← assembleWord_true_eq_sub, assembleWord_true, val_bitsN_signExtend hw hs]

/-- Settles O16: a one-byte extraction into a signed byte, which holds the byte as a two's-complement number. -/
theorem sbyteStagesSignedByte : Obligations.SbyteStagesSignedByte := by
  intro s rd a h
  obtain ⟨hop, hs, hw⟩ := sbyte_dest rd h
  refine ⟨by simp [encode, wordM_toNat], fun x ha hx => ?_, extractByte_aborts hop⟩
  refine ⟨bitsN rd.width (signExtend x), hw, ?_, ?_, extractByte_of_lt hop ha hx⟩
  · rw [setWidth_bitsN_width hw, bitsN_signExtend]
  · rw [← signExtend_byte_eq_sub, val_bitsN_signExtend hw hs]

/-- Settles O17: a one-byte extraction into an unsigned byte, which holds the byte as a natural number. -/
theorem ubyteStagesUnsignedByte : Obligations.UbyteStagesUnsignedByte := by
  intro s rd a h
  obtain ⟨hop, hs, hw⟩ := ubyte_dest rd h
  refine ⟨by simp [encode, wordM_toNat], fun x ha hx => ?_, extractByte_aborts hop⟩
  refine ⟨bitsN rd.width x.toNat, hw, ?_, val_bitsN_toNat hw hs x, extractByte_of_lt hop ha hx⟩
  rw [setWidth_bitsN_width hw, bitsN_natCast_toNat]

end Sys2Proof.Machine

/-! # Packed 12-bit extraction

Proofs about `42_packed12.md`. What a packed value is as a vector of 16 bits, from which the bits and the value of the
staged register both follow; then the two operations, each of which is a two-byte extraction and only adds its word and
its nibble. -/

namespace Sys2Proof.Machine

open Sys2Proof

/-! ## What a register holds of a packed value -/

/-- The low nibble on bits (R85). -/
theorem ofNat_lo4 (x : Byte) : BitVec.ofNat 4 (lo4 x) = x.extractLsb' 0 4 := by
  apply BitVec.eq_of_toNat_eq
  rw [BitVec.toNat_ofNat, Nat.mod_eq_of_lt (lo4_lt x), lo4_eq_mod, BitVec.extractLsb'_toNat, Nat.shiftRight_zero]

/-- A packed value is the number of four zero bits, the byte and the nibble (R86). -/
theorem pack12_eq_toNat (m : Byte) {nib : Nat} (hnib : nib < 16) :
    pack12 m nib = (0#4 ++ m ++ BitVec.ofNat 4 nib : BitVec 16).toNat := by
  rw [pack12_eq_mul_add m hnib, toNat_append_eq_mul_add, toNat_append_eq_mul_add, BitVec.toNat_ofNat,
    BitVec.toNat_ofNat, Nat.mod_eq_of_lt hnib]
  omega

/-- Bits 15:12 of a 16-bit register that holds a packed value are zero; the byte and the nibble follow (R100, R101). -/
theorem setWidth_bitsN_pack12 {f : Field} (hw : f.width = 16) (m : Byte) {nib : Nat} (hnib : nib < 16) :
    (bitsN f.width (pack12 m nib)).setWidth 16 = (0#4 ++ m ++ BitVec.ofNat 4 nib : BitVec 16) := by
  rw [setWidth_bitsN_width hw, pack12_eq_toNat m hnib, bitsN_natCast_toNat]

/-- An unsigned 16-bit register that holds a packed value has that value: no sign extension (R100, R101). -/
theorem val_bitsN_pack12 {f : Field} (hw : f.width = 16) (hs : f.ty.signed = false) (m : Byte) {nib : Nat}
    (hnib : nib < 16) : f.val (bitsN f.width (pack12 m nib)) = 16 * m.toNat + nib := by
  rw [pack12_eq_toNat m hnib, val_bitsN_toNat hw hs, ← pack12_eq_toNat m hnib, pack12_eq_mul_add m hnib,
    Int.natCast_add, Int.natCast_mul, Nat.cast_ofNat]

/-! ## The two operations -/

/-- Settles O18: a two-byte extraction into the unsigned word `par_h1`, which holds the first byte above the low nibble
of the second. -/
theorem pk12lStagesLowNibblePack : Obligations.Pk12lStagesLowNibblePack := by
  intro s a b
  have hop : Field.par_h1.opOf = .pk12l := rfl
  refine ⟨by simp [encode, wordM_toNat, Field.index], fun m l ha hb hm hl => ?_, extractPair_aborts_first hop,
    fun m ha hm => extractPair_aborts_second hop ha hm⟩
  refine ⟨bitsN Field.par_h1.width (pack12 m (lo4 l)), ?_, ?_, extractPair_of_lt hop ha hb hm hl⟩
  · rw [setWidth_bitsN_pack12 rfl m (lo4_lt l), ofNat_lo4]
  · rw [val_bitsN_pack12 rfl rfl m (lo4_lt l), lo4_eq_mod, Int.natCast_mod, Nat.cast_ofNat]

/-- Settles O19: a two-byte extraction into the unsigned word `par_h2`, which holds the first byte above the high nibble
of the second. -/
theorem pk12hStagesHighNibblePack : Obligations.Pk12hStagesHighNibblePack := by
  intro s a b
  have hop : Field.par_h2.opOf = .pk12h := rfl
  refine ⟨by simp [encode, wordM_toNat, Field.index], fun m l ha hb hm hl => ?_, extractPair_aborts_first hop,
    fun m ha hm => extractPair_aborts_second hop ha hm⟩
  refine ⟨bitsN Field.par_h2.width (pack12 m (hi4 l)), ?_, ?_, extractPair_of_lt hop ha hb hm hl⟩
  · rw [setWidth_bitsN_pack12 rfl m (hi4_lt l), ofNat_hi4]
  · rw [val_bitsN_pack12 rfl rfl m (hi4_lt l), hi4_eq_div, Int.natCast_ediv, Nat.cast_ofNat]

end Sys2Proof.Machine

/-! # Auxiliary extraction: a masked nibble and a signed byte

Proofs about `43_aux_extract.md`. First the rules of an auxiliary read and of the shape of an extraction from one; then
what a masked value is as a vector of 8 bits; then the two operations. Both destinations of `AMSK` are treated alike,
the signed one included, because a value below 16 never reaches the sign bit. -/

namespace Sys2Proof.Machine

open Sys2Proof

/-! ## The shape of an auxiliary extraction -/

section ExtractAux

variable {s : State} {op : Op} {rd : Field} {n : AuxReg} {value : Byte → Int}

/-- An auxiliary extraction with `AUXV = 1` stages the value of the byte held there (R42). -/
theorem extractAux_of_auxv {raw : Byte} (hop : rd.opOf = op) (hv : s.auxv = true) (hraw : s.aux.get n = some raw) :
    extractAux op rd n value s = .next (s.stage rd (bitsN rd.width (value raw))).advance := by
  rw [extractAux, bound, if_pos hop, auxRead, if_pos hv, hraw, ReadResult.ofStorage, withByte, finish]

/-- An auxiliary extraction with `AUXV = 0` aborts for its register (R42, R147). -/
theorem extractAux_aborts (hop : rd.opOf = op) (hv : s.auxv = false) :
    ∃ t, extractAux op rd n value s = .next t ∧ AbortedFrom s .aux n.byte t := by
  refine ⟨_, ?_, s.abort_abortedFrom .aux n.byte⟩
  rw [extractAux, bound, if_pos hop, auxRead, hv, if_neg Bool.false_ne_true, withByte]

end ExtractAux

/-! ## What a register holds of a masked value -/

/-- A masked value is the number of four zero bits and the common bits of the two high nibbles (R87). -/
theorem maskShift_eq_toNat (raw mask : Byte) :
    maskShift raw mask = (0#4 ++ (raw.extractLsb' 4 4 &&& mask.extractLsb' 4 4) : BitVec 8).toNat := by
  rw [← ofNat_hi4, ← ofNat_hi4, ← BitVec.ofNat_and, ← maskShift_eq_hi4_and_hi4, toNat_append_eq_mul_add,
    BitVec.toNat_ofNat, BitVec.toNat_ofNat, Nat.mod_eq_of_lt (maskShift_lt raw mask), Nat.zero_mod, Nat.zero_mul,
    Nat.zero_add]

/-- Bits 7:4 of an 8-bit register that holds a masked value are zero (R105). -/
theorem setWidth_bitsN_maskShift {f : Field} (hw : f.width = 8) (raw mask : Byte) :
    (bitsN f.width (maskShift raw mask)).setWidth 8 =
      (0#4 ++ (raw.extractLsb' 4 4 &&& mask.extractLsb' 4 4) : BitVec 8) := by
  rw [setWidth_bitsN_width hw, maskShift_eq_toNat, bitsN_natCast_toNat]

/-- A masked value is the quotient by 16 (R87). -/
theorem maskShift_eq_div (raw mask : Byte) : maskShift raw mask = (raw.toNat &&& mask.toNat) / 16 :=
  Nat.shiftRight_eq_div_pow _ 4

/-- An 8-bit register that holds a masked value has that value, signed or not: no sign extension (R105). -/
theorem val_bitsN_maskShift {f : Field} (hw : f.width = 8) (raw mask : Byte) :
    f.val (bitsN f.width (maskShift raw mask)) = ((raw.toNat &&& mask.toNat) / 16 : Nat) := by
  have hlt := maskShift_lt raw mask
  rw [f.val_bitsN_natCast (by rw [hw]; omega), maskShift_eq_div]

/-! ## The two operations -/

/-- The destinations of `AMSK` are bytes bound to it, one unsigned and one signed (R10). -/
theorem amsk_dest : ∀ rd ∈ [Field.res_heat_range, .range_sw_err], rd.opOf = .amsk ∧ rd.width = 8 := by
  decide

/-- Settles O20: an auxiliary extraction into a byte of either sign, which holds the common bits of the two high
nibbles. -/
theorem amskStagesMaskedNibble : Obligations.AmskStagesMaskedNibble := by
  intro s rd n mask h
  obtain ⟨hop, hw⟩ := amsk_dest rd h
  exact ⟨by simp [encode, wordM_toNat], fun raw hv hraw => ⟨bitsN rd.width (maskShift raw mask), hw,
    setWidth_bitsN_maskShift hw raw mask, val_bitsN_maskShift hw raw mask, extractAux_of_auxv hop hv hraw⟩,
    extractAux_aborts hop⟩

/-- Settles O21: an auxiliary extraction into the signed byte `res_heat_val`, which holds the auxiliary byte as a
two's-complement number. -/
theorem asbyteStagesSignedByte : Obligations.AsbyteStagesSignedByte := by
  intro s n
  have hop : Field.res_heat_val.opOf = .asbyte := rfl
  have hw : Field.res_heat_val.width = 8 := rfl
  refine ⟨by simp [encode, wordM_toNat, Field.index], fun raw hv hraw => ?_, extractAux_aborts hop⟩
  refine ⟨bitsN Field.res_heat_val.width (signExtend raw), ?_, ?_, extractAux_of_auxv hop hv hraw⟩
  · rw [setWidth_bitsN_width hw, bitsN_signExtend]
  · rw [← signExtend_byte_eq_sub, val_bitsN_signExtend hw rfl]

end Sys2Proof.Machine

/-! # Sequencing and load: the host transactions, the sequencer's step, and a cycle as a whole

Proofs about `44_sequencing_and_load.md`. First the preconditions of the transactions, said once (`transact_accepted`,
`transact_refused`), and the transactions; then the sequencer's step and the canonical program; then the reads of a
program and the first that fails; then a cycle, as what holds at every index until it ends (`Running`) and what holds
once it has ended (`CycleEnded`). The obligations about a load follow from these. -/

namespace Sys2Proof

/-! ## The index of a field -/

/-- The index of a field names that field (R10). -/
@[simp] theorem Field.ofIndex_index (f : Field) : Field.ofIndex f.index = some f := by
  rw [← f.bits_toNat, f.ofIndex_bits]

/-- An index above 25 names no field (R64). -/
theorem Field.ofIndex_eq_none {n : Nat} (h : 26 ≤ n) : Field.ofIndex n = none := List.getElem?_eq_none h

/-- An index up to 25 names a field (R10). -/
theorem Field.exists_ofIndex {n : Nat} (h : n ≤ 25) : ∃ f, Field.ofIndex n = some f :=
  ⟨_, List.getElem?_eq_getElem (Nat.lt_succ_of_le h)⟩

end Sys2Proof

namespace Sys2Proof.Machine

open Sys2Proof

/-! ## The preconditions of the transactions -/

section Preconditions

variable {s : State} (k : Host.Outcome State Fault Refusal)

/-- In IDLE the precondition `BUSY = 0` holds (R113). -/
theorem whenIdle_of_idle (hb : s.busy = false) : whenIdle s k = k := by
  rw [whenIdle, hb, if_neg Bool.false_ne_true]

/-- In RUN the precondition `BUSY = 0` refuses (R113). -/
theorem whenIdle_of_busy (hb : s.busy = true) : whenIdle s k = .refused .busy := by
  rw [whenIdle, if_pos hb]

/-- Over a loaded record the precondition `VALID = 1` holds (R113). -/
theorem whenLoaded_of_valid (hv : s.valid = true) : whenLoaded s k = k := by
  rw [whenLoaded, if_pos hv]

/-- Before a record was loaded the precondition `VALID = 1` refuses (R113). -/
theorem whenLoaded_of_not_valid (hv : s.valid = false) : whenLoaded s k = .refused .notLoaded := by
  rw [whenLoaded, hv, if_neg Bool.false_ne_true]

end Preconditions

/-- Whose turn comes next and what was answered are no part of a precondition. -/
theorem HostTxn.allowed_afterTurn (u : HostTxn) (s : State) (rest : List Turn) :
    u.allowed (s.afterTurn rest) ↔ u.allowed s := by
  cases u <;> exact Iff.rfl

/-- A transaction whose precondition holds is accepted: what it reads is held (R113). -/
theorem transact_accepted {u : HostTxn} {s : State} (hs : s.Inv) (h : u.allowed s) : ∃ t, transact u s = .next t := by
  cases u with
  | reset | readStatus | readErrInfo => exact ⟨_, rfl⟩
  | fill bytes =>
    obtain ⟨hb, hl⟩ := h
    exact ⟨_, (whenIdle_of_idle _ hb).trans (if_pos hl)⟩
  | setAux | transportFail | start => exact ⟨_, whenIdle_of_idle _ h⟩
  | readField n =>
    obtain ⟨hv, hn⟩ := h
    obtain ⟨f, hf⟩ := Field.exists_ofIndex hn
    obtain ⟨v, hg⟩ := Option.isSome_iff_exists.mp ((hs.record_held f).trans hv)
    exact ⟨_, (whenLoaded_of_valid _ hv).trans (by rw [hf]; dsimp only; rw [hg])⟩
  | setTFine => exact ⟨_, whenLoaded_of_valid _ h⟩
  | readTFine =>
    obtain ⟨hv, ht⟩ := h
    obtain ⟨v, hg⟩ := Option.isSome_iff_exists.mp (hs.tfv_held ht).2
    exact ⟨_, (whenLoaded_of_valid _ hv).trans (by rw [if_pos ht, hg])⟩

/-- A transaction whose precondition fails is refused, in every state (R9, R113). -/
theorem transact_refused {u : HostTxn} {s : State} (h : ¬ u.allowed s) : ∃ r, transact u s = .refused r := by
  cases u with
  | reset | readStatus | readErrInfo => exact absurd trivial h
  | fill bytes =>
    cases hb : s.busy with
    | true => exact ⟨_, whenIdle_of_busy _ hb⟩
    | false => exact ⟨_, (whenIdle_of_idle _ hb).trans (if_neg fun hl => h ⟨hb, hl⟩)⟩
  | setAux | transportFail | start => exact ⟨_, whenIdle_of_busy _ (Bool.eq_true_of_not_eq_false h)⟩
  | readField n =>
    cases hv : s.valid with
    | false => exact ⟨_, whenLoaded_of_not_valid _ hv⟩
    | true =>
      have hn : 26 ≤ n := Nat.lt_of_not_le fun hn => h ⟨hv, hn⟩
      exact ⟨_, (whenLoaded_of_valid _ hv).trans (by rw [Field.ofIndex_eq_none hn])⟩
  | setTFine => exact ⟨_, whenLoaded_of_not_valid _ (Bool.eq_false_of_not_eq_true h)⟩
  | readTFine =>
    cases hv : s.valid with
    | false => exact ⟨_, whenLoaded_of_not_valid _ hv⟩
    | true => exact ⟨_, (whenLoaded_of_valid _ hv).trans (if_neg fun ht => h ⟨hv, ht⟩)⟩

/-- A step whose turn is a transaction with a failing precondition is refused (R113). -/
theorem step_refused {s : State} {u : HostTxn} {rest : List Turn} (hag : s.agenda = .host u :: rest)
    (h : ¬ u.allowed s) : ∃ r, step s = .refused r := by
  rw [step_host hag]
  exact transact_refused fun ha => h ((u.allowed_afterTurn s rest).mp ha)

/-- Settles O38: taking the turn changes no precondition, and the precondition decides. -/
theorem transactionAcceptedExactlyWhenAllowed : Obligations.TransactionAcceptedExactlyWhenAllowed := by
  refine fun s u rest hs hag => ⟨fun h => ?_, step_refused hag⟩
  rw [step_host hag]
  exact transact_accepted (hs.afterTurn rest) ((u.allowed_afterTurn s rest).mpr h)

/-! ## The transactions -/

/-- Settles O30: an accepted `HostFill` leaves a memory filled from offset 0, and nothing but its two fields changes. -/
theorem hostFillDeliversTheBytes : Obligations.HostFillDeliversTheBytes := by
  refine fun s bytes rest hag => ⟨fun hb hl => ?_, fun h => step_refused hag fun ⟨hb, hl⟩ => ?_⟩
  · have hlen : (BitVec.ofNat 9 bytes.length).toNat = bytes.length := by
      rw [BitVec.toNat_ofNat, Nat.mod_eq_of_lt (by omega)]
    refine ⟨Memory.fill bytes, BitVec.ofNat 9 bytes.length, ?_, hlen, Memory.wf_fill bytes hl, Memory.read_fill bytes⟩
    rw [step_host hag]
    exact (whenIdle_of_idle _ hb).trans (if_pos hl)
  · obtain hbusy | hlong := h
    · exact absurd (hb.symm.trans hbusy) Bool.false_ne_true
    · exact absurd hl (Nat.not_le_of_lt hlong)

/-- Settles O31: `HostSetAux` needs `BUSY = 0` and writes the auxiliary file as a whole. -/
theorem hostSetAuxSuppliesThreeBytes : Obligations.HostSetAuxSuppliesThreeBytes := fun _ b0 b1 b2 _ hag =>
  ⟨fun hb => ⟨⟨some b0, some b1, some b2⟩, (step_host hag).trans (whenIdle_of_idle _ hb), rfl, rfl, rfl⟩,
    fun hb => step_refused hag (ne_false_of_eq_true hb)⟩

/-- Settles O32: `HostTransportFail` needs `BUSY = 0` and empties the storage of the input it concerns. -/
theorem transportFailureInvalidatesItsInput : Obligations.TransportFailureInvalidatesItsInput := by
  refine fun s sel rest hag => ⟨?_, ?_, fun hb => step_refused hag (ne_false_of_eq_true hb)⟩
  · rintro hb rfl
    exact ⟨[], Memory.read_nil, (step_host hag).trans (whenIdle_of_idle _ hb)⟩
  · rintro hb rfl
    exact ⟨{}, AuxFile.get_empty, (step_host hag).trans (whenIdle_of_idle _ hb)⟩

/-- Settles O33: `HostStart` needs `BUSY = 0` and begins the cycle. -/
theorem hostStartBeginsACycle : Obligations.HostStartBeginsACycle := fun _ _ hag =>
  ⟨fun hb => ⟨{}, (step_host hag).trans (whenIdle_of_idle _ hb)⟩,
    fun hb => step_refused hag (ne_false_of_eq_true hb)⟩

/-- `STATUS` as a number (R19, R21). -/
theorem statusWord_toNat (s : State) : (statusWord s).toNat =
    s.busy.toNat + 2 * s.valid.toNat + 4 * s.auxv.toNat + 8 * s.tfv.toNat + 16 * s.err.bits.toNat := by
  simp only [statusWord, toNat_append_eq_mul_add, BitVec.toNat_ofBool, BitVec.toNat_ofNat]
  omega

/-- Settles O34: neither read has a precondition. -/
theorem statusReadsReturnTheFlags : Obligations.StatusReadsReturnTheFlags := by
  refine fun s rest => ⟨fun hag => ⟨statusWord s, step_host hag, ?_⟩, step_host⟩
  rw [statusWord_toNat]
  cases s.err <;> rfl

/-- Settles O39: the turn is taken, and a read transaction only answers. -/
theorem readTransactionsChangeNothing : Obligations.ReadTransactionsChangeNothing := by
  intro s t u rest hag hu h
  rw [step_host hag] at h
  exact transact_next_of_isRead hu h

/-- Widening keeps the value: the sign is extended exactly for the signed byte (R120). -/
theorem val_eq_rdata (f : Field) (v : BitVec f.width) :
    f.val v = (match f.ty with | .i8 | .i16 => (rdata f v).toInt | .u8 | .u16 => ((rdata f v).toNat : Int)) := by
  unfold rdata Field.val
  revert v
  unfold Field.width
  cases f.ty with
  | i8 => exact fun v => (BitVec.toInt_signExtend_of_le (by decide)).symm
  | u8 => exact fun v => congrArg Int.ofNat (BitVec.toNat_setWidth_of_le (by decide)).symm
  | i16 => exact fun v => congrArg BitVec.toInt (BitVec.setWidth_eq v).symm
  | u16 => exact fun v => congrArg (fun w : Half => (w.toNat : Int)) (BitVec.setWidth_eq v).symm

/-- Settles O35: over a loaded record the register of the index is widened by its type, which keeps its value. -/
theorem hostReadReturnsTheCoefficient : Obligations.HostReadReturnsTheCoefficient := by
  refine fun s n rest hag => ⟨?_, fun h => step_refused hag fun ⟨hv, hn⟩ => ?_⟩
  · rintro f v hv rfl hg
    refine ⟨rdata f v, ?_, ?_, val_eq_rdata f v⟩
    · rw [step_host hag]
      refine (whenLoaded_of_valid _ hv).trans ?_
      rw [Field.ofIndex_index]
      dsimp only
      rw [State.afterTurn_record, hg]
      rfl
    · unfold rdata
      cases f.ty <;> rfl
  · obtain hvalid | hlarge := h
    · exact absurd (hvalid.symm.trans hv) Bool.false_ne_true
    · omega

/-! ## The sequencer's step -/

/-- In RUN with no host transaction next the step is the meaning of the micro-operation at `UPC` (R111). -/
theorem step_of_fetchInstr {s : State} {i : Instr} (hb : s.busy = true) (hn : ∀ u rest, s.agenda ≠ .host u :: rest)
    (hi : fetchInstr s = some i) : step s = exec i (s.afterTurn s.agenda.tail) := by
  rw [step_sequencer hn, sequencerStep, State.afterTurn_busy, if_pos hb, fetchInstr_afterTurn, hi]

/-- In IDLE with no host transaction next the step is refused (R20, R111). -/
theorem step_of_idle {s : State} (hb : s.busy = false) (hn : ∀ u rest, s.agenda ≠ .host u :: rest) :
    step s = .refused .idle := by
  rw [step_sequencer hn, sequencerStep, State.afterTurn_busy, if_neg (ne_true_of_eq_false hb)]

/-- Settles O26: the word at `UPC` is the one fetched. -/
theorem stepRunsTheDecodedWord : Obligations.StepRunsTheDecodedWord := fun s w i hb hn hw hi =>
  step_of_fetchInstr hb hn (show s.prog.words[s.upc.toNat]?.bind decode = some i by rw [hw, Option.bind_some, hi])

/-- Settles O27: in IDLE there is no step; in RUN `UPC` names a word of the program, and all of them are valid. -/
theorem sequencerIsEnabledExactlyWhenBusy : Obligations.SequencerIsEnabledExactlyWhenBusy := by
  refine fun s hn => ⟨fun hb => step_of_idle hb hn, fun hb hu => ?_⟩
  have hlt : s.upc.toNat < s.prog.words.length := by rw [s.prog.words_length]; omega
  have hw := List.getElem?_eq_getElem hlt
  obtain ⟨i, hi⟩ := Option.isSome_iff_exists.mp (s.prog.decode_isSome (List.getElem_mem hlt))
  exact ⟨_, i, hw, hi, wf_of_decode hi, stepRunsTheDecodedWord s _ i hb hn hw hi⟩

/-- Settles O22: `END` is the commit; it stands at index 26 alone, where the invariant says that all fields are
staged. -/
theorem endCommitsTheStagedRecord : Obligations.EndCommitsTheStagedRecord := by
  refine ⟨rfl, fun s => ⟨{}, rfl⟩, fun s hs hb => ⟨s.prog.decode_eq_end_iff _, fun hi f => ?_⟩⟩
  have hw : s.isWritten f = true := hs.isWritten_at_end hb ((s.prog.decode_eq_end_iff _).mp hi) f
  exact ⟨hw, (hs.staging_held f).trans hw⟩

end Sys2Proof.Machine

namespace Sys2Proof

/-! ## The canonical program -/

section Canonical

variable (o : OffsetMap) (rangeMask errorMask : Byte)

/-- Every line of the canonical program is a well-formed micro-operation (R66, R123). -/
theorem calInstr_wf (f : Field) : (calInstr o rangeMask errorMask f).wf = true := by
  cases f <;> rfl

/-- Line `f` of the canonical program loads field `f` (R123). -/
theorem calInstr_dest (f : Field) : (calInstr o rangeMask errorMask f).dest = some f := by
  cases f <;> rfl

/-- The word of the canonical program at the index of a field is the field's line (R123). -/
theorem calprog_line (f : Field) :
    ((calprog o rangeMask errorMask).words[f.index]?).bind decode = some (calInstr o rangeMask errorMask f) := by
  have hlt : f.index < (Field.all.map fun f => encode (calInstr o rangeMask errorMask f)).length :=
    (List.length_map _).symm ▸ f.index_lt
  have hall : Field.all[f.index]? = some f := f.ofIndex_index
  have hw : (calprog o rangeMask errorMask).words[f.index]? = some (encode (calInstr o rangeMask errorMask f)) := by
    change (calWords o rangeMask errorMask)[f.index]? = _
    rw [calWords, List.getElem?_append_left hlt, List.getElem?_map, hall, Option.map_some]
  rw [hw, Option.bind_some, decode_encode _ (calInstr_wf o rangeMask errorMask f)]

end Canonical

end Sys2Proof

namespace Sys2Proof.Machine

open Sys2Proof

/-- Settles O8: the line of each field is the one its operation gives. -/
theorem canonicalProgramLines : Obligations.CanonicalProgramLines := by
  intro o rangeMask errorMask
  have hline := calprog_line o rangeMask errorMask
  refine ⟨Program.words_length _, fun f hf => ?_, fun f hf => ?_, fun f hf => ?_, fun f hf => ?_, hline .par_h1,
    hline .par_h2, hline .res_heat_range, hline .res_heat_val, hline .range_sw_err, Program.decode_last _⟩
  · simp only [hline, calInstr, (uword_dest f hf).1]
  · simp only [hline, calInstr, (sword_dest f hf).1]
  · simp only [hline, calInstr, (sbyte_dest f hf).1]
  · simp only [hline, calInstr, (ubyte_dest f hf).1]

end Sys2Proof.Machine

namespace Sys2Proof

/-! ## The words of a program as micro-operations -/

/-- The micro-operations of a list of valid words, one by one. -/
theorem instrsOf_getElem? (ws : List Word) (h : ∀ w ∈ ws, (decode w).isSome = true) (k : Nat) :
    (instrsOf ws)[k]? = (ws[k]?).bind decode := by
  induction ws generalizing k with
  | nil => rfl
  | cons w ws ih =>
    obtain ⟨i, hi⟩ := Option.isSome_iff_exists.mp (h w List.mem_cons_self)
    have hcons : instrsOf (w :: ws) = i :: instrsOf ws := List.filterMap_cons_some hi
    rw [hcons]
    cases k with
    | zero => exact hi.symm
    | succ k => exact ih (fun v hv => h v (List.mem_cons_of_mem w hv)) k

/-- Micro-operation `k` of a program is what word `k` decodes to. -/
theorem Program.instrs_getElem? (p : Program) (k : Nat) : p.instrs[k]? = (p.words[k]?).bind decode :=
  instrsOf_getElem? p.words (fun _ hw => p.decode_isSome hw) k

/-- A micro-operation of a program that has a destination stands at one index, below 26 (R70). -/
theorem Program.index_of_dest (p : Program) {i : Instr} {f : Field} (hi : i ∈ p.instrs) (hd : i.dest = some f) :
    ∃ k < 26, p.instrs[k]? = some i := by
  obtain ⟨k, hk⟩ := List.mem_iff_getElem?.mp hi
  refine ⟨k, p.lt_of_dest (f := f) ?_, hk⟩
  rw [← p.instrs_getElem?, hk, Option.bind_some, hd]

/-- Two micro-operations of a program with one destination stand at one index (R70). -/
theorem Program.instrs_dest_inj (p : Program) {j k : Nat} {i i' : Instr} {f : Field} (hj : p.instrs[j]? = some i)
    (hk : p.instrs[k]? = some i') (hi : i.dest = some f) (hi' : i'.dest = some f) : j = k := by
  apply p.dest_inj (f := f)
  · rw [← p.instrs_getElem?, hj, Option.bind_some, hi]
  · rw [← p.instrs_getElem?, hk, Option.bind_some, hi']

/-- Every field is loaded by a micro-operation of the program, the one bound to it (R66, R70). -/
theorem Program.exists_instr (p : Program) (f : Field) : ∃ i ∈ p.instrs, i.dest = some f ∧ i.op = f.opOf := by
  obtain ⟨k, i, -, hi, hd, hop⟩ := (everyFieldHasExactlyOneWord p f).1
  exact ⟨i, List.mem_iff_getElem?.mpr ⟨k, (p.instrs_getElem? k).trans hi⟩, hd, hop⟩

/-- The last micro-operation of a program is `END` (R70). -/
theorem Program.instrs_last (p : Program) : p.instrs[26]? = some .endOp := (p.instrs_getElem? 26).trans p.decode_last

/-- Nothing stands behind `END` (R70). -/
theorem Program.instrs_drop_eq_nil (p : Program) : p.instrs.drop 27 = [] := by
  have hnone : p.instrs[27]? = none := by
    rw [p.instrs_getElem?, p.getElem?_words_eq_none (by decide), Option.bind_none]
  exact List.drop_eq_nil_of_le (List.getElem?_eq_none_iff.mp hnone)

/-- The micro-operations of a program are those of its first 26 words, then `END` (R70). -/
theorem Program.instrs_eq_take (p : Program) : p.instrs = instrsOf (p.words.take 26) ++ [.endOp] := by
  have hlt : 26 < p.words.length := by rw [p.words_length]; decide
  have hend := p.decode_last
  rw [List.getElem?_eq_getElem hlt, Option.bind_some] at hend
  have hwords : p.words = p.words.take 26 ++ [p.words[26]] := by
    rw [List.take_append_getElem hlt, List.take_of_length_le p.words_length.le]
  have hsingle : [p.words[26]].filterMap decode = [.endOp] := List.filterMap_cons_some hend
  calc p.instrs = (p.words.take 26 ++ [p.words[26]]).filterMap decode := congrArg (List.filterMap decode) hwords
    _ = instrsOf (p.words.take 26) ++ [.endOp] := by rw [List.filterMap_append, hsingle]; rfl

/-! ## What a program reads -/

/-- The offsets of R124 are the buffer reads of the program's micro-operations. -/
theorem Program.mem_bufferOffsets (p : Program) (n : Nat) :
    n ∈ p.bufferOffsets ↔ ∃ a : Byte, (∃ i ∈ p.instrs, (.buffer, a) ∈ i.reads) ∧ a.toNat = n := by
  simp [Program.bufferOffsets]

/-- Every program reads the buffer, for `par_t1` (R10). -/
theorem Program.bufferOffsets_ne_nil (p : Program) : p.bufferOffsets ≠ [] := by
  obtain ⟨i, hi, -, hop⟩ := p.exists_instr .par_t1
  cases i with
  | uword rd a b => exact List.ne_nil_of_mem ((p.mem_bufferOffsets _).mpr ⟨a, ⟨_, hi, List.mem_cons_self⟩, rfl⟩)
  | _ => cases hop

/-- Every program reads an auxiliary register, for `res_heat_val` (R10). -/
theorem Program.exists_aux_read (p : Program) : ∃ i ∈ p.instrs, ∃ b, (.aux, b) ∈ i.reads := by
  obtain ⟨i, hi, -, hop⟩ := p.exists_instr .res_heat_val
  cases i with
  | asbyte rd n => exact ⟨_, hi, n.byte, List.mem_cons_self⟩
  | _ => cases hop

/-- `M` lies below a length exactly when every offset does (R124). -/
theorem Program.maxOffset_lt_iff (p : Program) (n : Nat) : p.maxOffset < n ↔ ∀ k ∈ p.bufferOffsets, k < n := by
  refine ⟨fun h k hk => Nat.lt_of_le_of_lt (List.le_max_of_le' 0 hk le_rfl) h, fun h => ?_⟩
  obtain ⟨k, hk⟩ := List.exists_mem_of_ne_nil _ p.bufferOffsets_ne_nil
  have hpos : 0 < n := Nat.zero_lt_of_lt (h k hk)
  have hmax : p.maxOffset ≤ n - 1 := List.max_le_of_forall_le _ _ fun k hk => Nat.le_sub_one_of_lt (h k hk)
  omega

end Sys2Proof

namespace Sys2Proof.Machine

open Sys2Proof

/-! ## The first failing read -/

/-- The load cannot fail exactly when no read of the program does (R124). -/
theorem State.ready_iff (s : State) : s.ready ↔ ∀ i ∈ s.prog.instrs, ∀ r ∈ i.reads, s.readFails r = false := by
  constructor
  · rintro ⟨hlen, hv⟩ i hi ⟨src, a⟩ hr
    cases src with
    | buffer =>
      have ha := (s.prog.maxOffset_lt_iff _).mp hlen _ ((s.prog.mem_bufferOffsets _).mpr ⟨a, ⟨i, hi, hr⟩, rfl⟩)
      exact decide_eq_false (Nat.not_le_of_lt ha)
    | aux => exact congrArg Bool.not hv
  · intro h
    constructor
    · refine (s.prog.maxOffset_lt_iff _).mpr fun k hk => ?_
      obtain ⟨a, ⟨i, hi, ha⟩, rfl⟩ := (s.prog.mem_bufferOffsets _).mp hk
      exact Nat.lt_of_not_le (of_decide_eq_false (h i hi _ ha))
    · obtain ⟨i, hi, b, hb⟩ := s.prog.exists_aux_read
      simpa [State.readFails] using h i hi _ hb

/-- There is no first failing read exactly when no read fails. -/
theorem State.firstFailure_eq_none_iff (s : State) (k : Nat) (is : List Instr) :
    s.firstFailure k is = none ↔ ∀ i ∈ is, ∀ r ∈ i.reads, s.readFails r = false := by
  induction is generalizing k with
  | nil => exact ⟨fun _ _ hi => absurd hi List.not_mem_nil, fun _ => rfl⟩
  | cons i is ih =>
    rw [State.firstFailure, List.forall_mem_cons]
    cases hr : i.reads.find? s.readFails with
    | some r =>
      refine ⟨nofun, fun ⟨h, _⟩ => ?_⟩
      exact absurd (h r (List.mem_of_find?_eq_some hr)) (ne_true_of_eq_false · (List.find?_some hr))
    | none =>
      have hnone : ∀ r ∈ i.reads, s.readFails r = false := fun r h =>
        eq_false_of_ne_true (List.find?_eq_none.mp hr r h)
      exact (ih (k + 1)).trans (iff_and_self.mpr fun _ => hnone)

/-- The load can fail exactly when there is a first failing read (R124, R125). -/
theorem State.ready_iff_firstFailure (s : State) : s.ready ↔ s.firstFailure 0 s.prog.instrs = none :=
  s.ready_iff.trans (s.firstFailure_eq_none_iff 0 s.prog.instrs).symm

section FirstFailure

variable {s : State} {is : List Instr} {k : Nat} {i : Instr} (hi : is[k]? = some i)

include hi

/-- The micro-operation at an index begins what is left from that index on. -/
theorem drop_eq_cons_of_getElem? : is.drop k = i :: is.drop (k + 1) := by
  obtain ⟨hk, rfl⟩ := List.getElem?_eq_some_iff.mp hi
  exact List.drop_eq_getElem_cons hk

/-- When a read of the micro-operation at an index fails, it is the first failing read from there on. -/
theorem State.firstFailure_drop_of_some {r : ReadSrc × Byte} (hr : i.reads.find? s.readFails = some r) :
    s.firstFailure k (is.drop k) = some (k, r.1, r.2) := by
  rw [drop_eq_cons_of_getElem? hi, State.firstFailure, hr]

/-- When no read of the micro-operation at an index fails, the first failing read is behind it. -/
theorem State.firstFailure_drop_of_none (hr : i.reads.find? s.readFails = none) :
    s.firstFailure k (is.drop k) = s.firstFailure (k + 1) (is.drop (k + 1)) := by
  rw [drop_eq_cons_of_getElem? hi, State.firstFailure, hr]

end FirstFailure

/-- When none of its reads fails, an extraction has a result. -/
theorem State.Held.exists_resultBits {s : State} (hs : s.Held) {i : Instr} {rd : Field} (hd : i.dest = some rd)
    (hr : i.reads.find? s.readFails = none) : ∃ v, s.resultBits i rd = some v := by
  have hread : ∀ r ∈ i.reads, s.readFails r = false := fun r h => eq_false_of_ne_true (List.find?_eq_none.mp hr r h)
  cases i with
  | uword _ a b | sword _ a b | pk12l _ a b | pk12h _ a b =>
    obtain ⟨m, hm⟩ := hs.buf_some (hread (.buffer, a) (by simp [Instr.reads]))
    obtain ⟨l, hl⟩ := hs.buf_some (hread (.buffer, b) (by simp [Instr.reads]))
    simp [State.resultBits, hm, hl]
  | sbyte _ a | ubyte _ a =>
    obtain ⟨x, hx⟩ := hs.buf_some (hread (.buffer, a) (by simp [Instr.reads]))
    simp [State.resultBits, hx]
  | amsk _ n _ | asbyte _ n =>
    obtain ⟨raw, hraw⟩ := hs.aux_some (x := n) (hread (.aux, n.byte) (by simp [Instr.reads]))
    simp [State.resultBits, hraw]
  | endOp => cases hd

/-! ## The inputs of a cycle -/

/-- Two states hold the same input bytes (R23, R24). -/
structure SameBytes (s t : State) : Prop where
  buf : t.buf = s.buf
  blen : t.blen = s.blen
  aux : t.aux = s.aux
  auxv : t.auxv = s.auxv

/-- Two states agree on what the outcome of a cycle is a function of (R126). -/
structure SameInputs (s t : State) : Prop extends SameBytes s t where
  prog : t.prog = s.prog

section SameBytes

variable {s t : State} (h : SameBytes s t)

include h

/-- The same reads fail on the same bytes. -/
theorem SameBytes.readFails : t.readFails = s.readFails := by
  funext r
  simp only [State.readFails, h.blen, h.auxv]

/-- A micro-operation has the same result on the same bytes. -/
theorem SameBytes.resultBits (i : Instr) (f : Field) : t.resultBits i f = s.resultBits i f := by
  cases i <;> simp only [State.resultBits, h.buf, h.aux]

/-- The same read of a list of micro-operations is the first that fails on the same bytes. -/
theorem SameBytes.firstFailure (k : Nat) (is : List Instr) : t.firstFailure k is = s.firstFailure k is := by
  induction is generalizing k with
  | nil => rfl
  | cons i is ih => simp only [State.firstFailure, h.readFails, ih]

end SameBytes

/-! ## The sequencer's step in RUN -/

/-- In RUN with no host transaction next the sequencer commits at index 26; before it, it aborts at the first failing
read of the micro-operation there, and stages its result if there is none (R110, R111, R146). -/
theorem State.Inv.step_running {s : State} (hs : s.Inv) (hb : s.busy = true)
    (hn : ∀ u rest, s.agenda ≠ .host u :: rest) :
    (s.upc.toNat = 26 ∧ step s = .next (s.afterTurn s.agenda.tail).commit) ∨
    ∃ i rd, s.upc.toNat < 26 ∧ s.prog.instrs[s.upc.toNat]? = some i ∧ i.dest = some rd ∧
      ((∃ r, i.reads.find? s.readFails = some r ∧ step s = .next ((s.afterTurn s.agenda.tail).abort r.1 r.2)) ∨
        (i.reads.find? s.readFails = none ∧ ∃ v, s.resultBits i rd = some v ∧
          step s = .next ((s.afterTurn s.agenda.tail).stage rd v).advance)) := by
  obtain ⟨w, i, hw, hi, -, hstep⟩ := (sequencerIsEnabledExactlyWhenBusy s hn).2 hb hs.upc_le
  have hfetch : fetchInstr s = some i := (congrArg (·.bind decode) hw).trans hi
  obtain ⟨rfl, hu⟩ | ⟨rd, hd, hop, hu, -⟩ := hs.fetchInstr_cases hfetch
  · exact .inl ⟨hu, hstep⟩
  · refine .inr ⟨i, rd, hu, (s.prog.instrs_getElem? _).trans hfetch, hd, ?_⟩
    have htaken : SameBytes s (s.afterTurn s.agenda.tail) := ⟨rfl, rfl, rfl, rfl⟩
    rw [exec_of_dest i rd _ (hs.afterTurn _).held hd hop, afterReads, htaken.readFails, htaken.resultBits] at hstep
    cases hr : i.reads.find? s.readFails with
    | some r => exact .inl ⟨r, rfl, by rw [hstep, hr]⟩
    | none =>
      obtain ⟨v, hv⟩ := hs.held.exists_resultBits hd hr
      exact .inr ⟨rfl, v, hv, by rw [hstep, hr, hv]⟩

/-- The index after an extraction is the next one: below 26 `UPC` does not wrap (R18). -/
theorem State.upc_stage_advance {s : State} (hu : s.upc.toNat < 26) (ts : List Turn) (f : Field) (v : BitVec f.width) :
    ((s.afterTurn ts).stage f v).advance.upc.toNat = s.upc.toNat + 1 := by
  rw [State.advance_upc, State.stage_upc, State.afterTurn_upc]
  bv_omega

/-- A state without turns to come has no host transaction next. -/
theorem no_host_of_agenda_nil {s : State} (h : s.agenda = []) : ∀ u rest, s.agenda ≠ .host u :: rest :=
  fun _ _ e => List.cons_ne_nil _ _ (e.symm.trans h)

/-- Steps of the sequencer that keep `P` while they go from index to index, and at some index lead to `E` instead, do
lead to `E`: `UPC` cannot pass 26 (R112). -/
theorem runs_to_end {P E : State → Prop} (hle : ∀ t, P t → t.upc.toNat ≤ 26)
    (hstep : ∀ t, P t → (∀ u rest, t.agenda ≠ .host u :: rest) → ∃ u, step t = .next u ∧ u.agenda = t.agenda.tail ∧
      ((P u ∧ u.upc.toNat = t.upc.toNat + 1) ∨ (E u ∧ u.upc = t.upc)))
    {t : State} (ht : P t) (hag : t.agenda = []) :
    ∃ n u, t.runs (n + 1) = .next u ∧ E u ∧ u.upc.toNat = t.upc.toNat + n ∧
      ∀ k ≤ n, ∃ v, t.runs k = .next v ∧ P v ∧ v.upc.toNat = t.upc.toNat + k := by
  induction hm : 27 - t.upc.toNat generalizing t with
  | zero =>
    have hupc := hle t ht
    omega
  | succ m ih =>
    obtain ⟨u, hu, hag', ⟨hP, hnext⟩ | ⟨hE, hupc⟩⟩ := hstep t ht (no_host_of_agenda_nil hag)
    · rw [hag] at hag'
      obtain ⟨n, v, hv, hE, hupc, hbefore⟩ := ih hP hag' (by omega)
      refine ⟨n + 1, v, (t.runs_succ_of_step hu (n + 1)).trans hv, hE, by omega, fun k hk => ?_⟩
      cases k with
      | zero => exact ⟨t, rfl, ht, rfl⟩
      | succ k =>
        obtain ⟨w, hw, hPw, hupcw⟩ := hbefore k (Nat.le_of_succ_le_succ hk)
        exact ⟨w, (t.runs_succ_of_step hu k).trans hw, hPw, by omega⟩
    · refine ⟨0, u, t.runs_succ_of_step hu 0, hE, congrArg BitVec.toNat hupc, fun k hk => ?_⟩
      obtain rfl := Nat.le_zero.mp hk
      exact ⟨t, rfl, ht, rfl⟩

/-! ## A cycle, index by index -/

/-- `t` is in RUN, and the record and `VALID` are those of `s` (R52). -/
structure InRun (s t : State) : Prop where
  inv : t.Inv
  busy : t.busy = true
  record : t.record = s.record
  valid : t.valid = s.valid

/-- `t` is in the cycle that `HostStart` began in `s`, before its end: of the inputs of `s` no read has failed yet, and
the words before `UPC` have staged their results on them. -/
structure Running (s t : State) : Prop extends InRun s t, SameInputs s t where
  tFine : t.tFine = s.tFine
  tfv : t.tfv = s.tfv
  failure : s.firstFailure 0 s.prog.instrs = s.firstFailure t.upc.toNat (s.prog.instrs.drop t.upc.toNat)
  staged : ∀ k i f, k < t.upc.toNat → s.prog.instrs[k]? = some i → i.dest = some f →
    t.staging.get f = s.resultBits i f

/-- `t` is in IDLE with the record that the cycle begun in `s` has committed (R110, R124). -/
structure Committed (s t : State) : Prop extends SameInputs s t where
  busy : t.busy = false
  valid : t.valid = true
  tfv : t.tfv = false
  err : t.err = .noError
  errinfo : t.errinfo = 0
  upc : t.upc = 26
  written : t.written = 0
  tFine : t.tFine = s.tFine
  record : ∀ i f, i ∈ s.prog.instrs → i.dest = some f →
    t.record.get f = s.resultBits i f ∧ (t.record.get f).isSome = true

/-- `t` is in IDLE after the abort, at word `k` by a read of `off` in the space `src`, of the cycle begun in `s`
(R125, R147). -/
structure Aborted (s : State) (k : Nat) (src : ReadSrc) (off : Byte) (t : State) : Prop where
  busy : t.busy = false
  err : t.err = .malformedInput
  errinfo : t.errinfo.toNat = k * 512 + (match src with | .buffer => 0 | .aux => 256) + off.toNat
  upc : t.upc.toNat = k
  index_lt : k < 26
  record : t.record = s.record
  valid : t.valid = s.valid
  tFine : t.tFine = s.tFine
  tfv : t.tfv = s.tfv

/-- `t` is in IDLE after the cycle begun in `s`: the first failing read decides how that one ended. -/
def CycleEnded (s t : State) : Prop :=
  (s.firstFailure 0 s.prog.instrs = none ∧ Committed s t) ∨
    ∃ k src off, s.firstFailure 0 s.prog.instrs = some (k, src, off) ∧ Aborted s k src off t

/-- A cycle that has ended has left RUN. -/
theorem CycleEnded.busy {s t : State} (h : CycleEnded s t) : t.busy = false := by
  obtain ⟨-, h⟩ | ⟨k, src, off, -, h⟩ := h
  · exact h.busy
  · exact h.busy

/-- `HostStart` begins a cycle with nothing staged (R118). -/
theorem Running.start {s : State} (hs : s.Inv) (rest : List Turn) : Running s (s.afterTurn rest).startCycle where
  inv := (hs.afterTurn rest).startCycle
  busy := rfl
  record := rfl
  valid := rfl
  prog := rfl
  buf := rfl
  blen := rfl
  aux := rfl
  auxv := rfl
  tFine := rfl
  tfv := rfl
  failure := rfl
  staged := fun k _ _ hk => absurd hk (Nat.not_lt_zero k)

section Cycle

variable {s t : State}

/-- An extraction without a failing read stages its result, and the cycle goes on to the next index (R15, R18). -/
theorem Running.stage_advance (h : Running s t) {i : Instr} {rd : Field} {v : BitVec rd.width} {ts : List Turn}
    (hu : t.upc.toNat < 26) (hi : s.prog.instrs[t.upc.toNat]? = some i) (hd : i.dest = some rd)
    (hr : i.reads.find? s.readFails = none) (hv : s.resultBits i rd = some v)
    (hinv : (((t.afterTurn ts).stage rd v).advance).Inv) :
    Running s ((t.afterTurn ts).stage rd v).advance ∧
      ((t.afterTurn ts).stage rd v).advance.upc.toNat = t.upc.toNat + 1 := by
  have hnext := State.upc_stage_advance hu ts rd v
  refine ⟨{ h with
    inv := hinv
    failure := by rw [h.failure, hnext, State.firstFailure_drop_of_none hi hr]
    staged := fun k j f hk hj hf => ?_ }, hnext⟩
  rw [State.advance_staging, State.stage_staging, State.afterTurn_staging]
  rw [hnext] at hk
  by_cases e : f = rd
  · subst e
    obtain rfl := s.prog.instrs_dest_inj hj hi hf hd
    obtain rfl : j = i := Option.some.inj (hj.symm.trans hi)
    rw [RegFile.get_set_same, hv]
  · have hne : k ≠ t.upc.toNat := by
      rintro rfl
      obtain rfl : j = i := Option.some.inj (hj.symm.trans hi)
      exact e (Option.some.inj (hf.symm.trans hd))
    rw [RegFile.get_set_other _ _ _ _ e]
    exact h.staged k j f (by omega) hj hf

/-- At index 26 no read has failed, and `END` commits the results of all words (R110). -/
theorem Running.commit (h : Running s t) (hu : t.upc.toNat = 26) (ts : List Turn) :
    CycleEnded s (t.afterTurn ts).commit := by
  have hnone : s.firstFailure 0 s.prog.instrs = none := by
    rw [h.failure, hu, State.firstFailure_drop_of_none s.prog.instrs_last rfl, s.prog.instrs_drop_eq_nil,
      State.firstFailure]
  refine .inl ⟨hnone, { h with
    busy := rfl
    valid := rfl
    tfv := rfl
    err := h.inv.run_noError h.busy
    errinfo := h.inv.errinfo_zero (by rw [h.inv.run_noError h.busy]; decide)
    upc := BitVec.eq_of_toNat_eq hu
    written := rfl
    record := fun i f hi hf => ?_ }⟩
  obtain ⟨k, hk, hik⟩ := s.prog.index_of_dest hi hf
  exact ⟨h.staged k i f (hu ▸ hk) hik hf, (h.inv.staging_held f).trans (h.inv.isWritten_at_end h.busy hu f)⟩

/-- A failing read of the micro-operation at `UPC` is the first of the cycle and aborts it (R125). -/
theorem Running.abort (h : Running s t) {i : Instr} {r : ReadSrc × Byte} (hu : t.upc.toNat < 26)
    (hi : s.prog.instrs[t.upc.toNat]? = some i) (hr : i.reads.find? s.readFails = some r) (ts : List Turn) :
    CycleEnded s ((t.afterTurn ts).abort r.1 r.2) :=
  .inr ⟨t.upc.toNat, r.1, r.2, h.failure.trans (State.firstFailure_drop_of_some hi hr),
    { h with
      busy := rfl
      err := rfl
      errinfo := errInfoWord_toNat t.upc r.1 r.2
      upc := rfl
      index_lt := hu }⟩

/-- A step of the sequencer takes a running cycle to the next index, or ends it at this one. -/
theorem Running.step_sequencer (h : Running s t) (hn : ∀ u rest, t.agenda ≠ .host u :: rest) :
    ∃ u, step t = .next u ∧ u.agenda = t.agenda.tail ∧
      ((Running s u ∧ u.upc.toNat = t.upc.toNat + 1) ∨ (CycleEnded s u ∧ u.upc = t.upc)) := by
  obtain ⟨hu, hstep⟩ | ⟨i, rd, hu, hi, hd, ⟨r, hr, hstep⟩ | ⟨hr, v, hv, hstep⟩⟩ := h.inv.step_running h.busy hn
  · exact ⟨_, hstep, rfl, .inr ⟨h.commit hu _, rfl⟩⟩
  · rw [h.prog] at hi
    rw [h.readFails] at hr
    exact ⟨_, hstep, rfl, .inr ⟨h.abort hu hi hr _, rfl⟩⟩
  · rw [h.prog] at hi
    rw [h.readFails] at hr
    rw [h.resultBits] at hv
    exact ⟨_, hstep, rfl, .inl (h.stage_advance hu hi hd hr hv (stepKeepsInvariant t _ h.inv hstep))⟩

/-- A read by the host leaves a running cycle as it is (R126). -/
theorem Running.answering (h : Running s t) (rest : List Turn) (a : Answer) :
    Running s ((t.afterTurn rest).answering a) :=
  { h with inv := (h.inv.afterTurn rest).answering a }

/-- A read by the host leaves what a cycle has ended with (R126). -/
theorem CycleEnded.answering (h : CycleEnded s t) (rest : List Turn) (a : Answer) :
    CycleEnded s ((t.afterTurn rest).answering a) :=
  h.imp (fun ⟨hnone, h⟩ => ⟨hnone, { h with }⟩)
    fun ⟨k, src, off, hsome, h⟩ => ⟨k, src, off, hsome, { h with }⟩

end Cycle

/-! ## A cycle left to itself -/

/-- From `HostStart` on the sequencer goes from index to index, and at some index `n` the cycle ends. -/
theorem State.Inv.cycle_ends {s : State} (hs : s.Inv) (hb : s.busy = false) :
    ∃ n t, n ≤ 26 ∧ s.starting.runs (n + 2) = .next t ∧ CycleEnded s t ∧ t.upc.toNat = n ∧
      ∀ k ≤ n, ∃ u, s.starting.runs (k + 1) = .next u ∧ Running s u ∧ u.upc.toNat = k := by
  have hstart : step s.starting = .next (s.afterTurn []).startCycle :=
    (step_host s.starting_agenda).trans (whenIdle_of_idle _ hb)
  have hzero : (s.afterTurn []).startCycle.upc.toNat = 0 := rfl
  obtain ⟨n, t, ht, hended, hupc, hbefore⟩ := runs_to_end (P := Running s) (E := CycleEnded s)
    (fun t h => h.inv.upc_le) (fun t h => h.step_sequencer) (Running.start hs []) rfl
  simp only [hzero, Nat.zero_add] at hupc hbefore
  obtain ⟨u, -, hrun, hu⟩ := hbefore n le_rfl
  refine ⟨n, t, hu ▸ hrun.inv.upc_le, (State.runs_succ_of_step hstart _).trans ht, hended, hupc, fun k hk => ?_⟩
  obtain ⟨u, hu, hrun, hupc⟩ := hbefore k hk
  exact ⟨u, (State.runs_succ_of_step hstart k).trans hu, hrun, hupc⟩

/-- A load that cannot fail commits, after 27 steps of the sequencer (R124). -/
theorem State.Inv.cycle_commits {s : State} (hs : s.Inv) (hb : s.busy = false) (hready : s.ready) :
    (∃ t, s.starting.runs 28 = .next t ∧ Committed s t) ∧
      ∀ k < 27, ∃ u, s.starting.runs (k + 1) = .next u ∧ Running s u ∧ u.upc.toNat = k := by
  have hnone := s.ready_iff_firstFailure.mp hready
  obtain ⟨n, t, -, ht, ⟨-, h⟩ | ⟨k, src, off, hsome, -⟩, hupc, hbefore⟩ := hs.cycle_ends hb
  · obtain rfl : 26 = n := (congrArg BitVec.toNat h.upc).symm.trans hupc
    exact ⟨⟨t, ht, h⟩, fun k hk => hbefore k (Nat.le_of_lt_succ hk)⟩
  · exact absurd (hsome.symm.trans hnone) (Option.some_ne_none _)

/-- A load that can fail aborts at the first failing read, as soon as its word is reached (R125). -/
theorem State.Inv.cycle_aborts {s : State} (hs : s.Inv) (hb : s.busy = false) (hready : ¬ s.ready) :
    ∃ k src off t, s.firstFailure 0 s.prog.instrs = some (k, src, off) ∧ s.starting.runs (k + 2) = .next t ∧
      Aborted s k src off t := by
  obtain ⟨n, t, -, ht, ⟨hnone, -⟩ | ⟨k, src, off, hsome, h⟩, hupc, -⟩ := hs.cycle_ends hb
  · exact absurd (s.ready_iff_firstFailure.mpr hnone) hready
  · obtain rfl := h.upc.symm.trans hupc
    exact ⟨k, src, off, t, hsome, ht, h⟩

/-- Settles O48: the cycle commits, and before that it is running at every index. -/
theorem loadSucceeds : Obligations.LoadSucceeds := by
  intro s hs hb hready
  obtain ⟨⟨t, ht, h⟩, hbefore⟩ := hs.cycle_commits hb hready
  refine ⟨⟨t, ht, h.busy, h.valid, h.tfv, h.err, h.errinfo, h.upc, h.written, h.buf, h.blen, h.aux, h.auxv, h.tFine,
    h.record⟩, fun k hk => ?_⟩
  obtain ⟨u, hu, hrun, hupc⟩ := hbefore k hk
  exact ⟨u, hu, hrun.busy, hupc, hrun.record, hrun.valid⟩

/-- Settles O49: the cycle aborts at the first failing read. -/
theorem loadFailsAtTheFirstMissingByte : Obligations.LoadFailsAtTheFirstMissingByte := by
  intro s hs hb hready
  obtain ⟨k, src, off, t, hsome, ht, h⟩ := hs.cycle_aborts hb hready
  exact ⟨k, src, off, hsome, Nat.le_of_lt_succ h.index_lt, t, ht, h.busy, h.err, h.errinfo, h.upc, h.record, h.valid,
    h.tFine, h.tfv⟩

/-- A step of the sequencer in RUN goes on to the next index, or ends the cycle at this one by commit or by abort
(R112). -/
theorem InRun.step_sequencer {s t : State} (h : InRun s t) (hn : ∀ u rest, t.agenda ≠ .host u :: rest) :
    ∃ u, step t = .next u ∧ u.agenda = t.agenda.tail ∧ ((InRun s u ∧ u.upc.toNat = t.upc.toNat + 1) ∨
      ((u.busy = false ∧ ((u.err = .noError ∧ u.valid = true ∧ ∀ f, (u.record.get f).isSome = true) ∨
        (u.err = .malformedInput ∧ u.record = s.record ∧ u.valid = s.valid))) ∧ u.upc = t.upc)) := by
  obtain ⟨hu, hstep⟩ | ⟨i, rd, hu, -, -, ⟨r, -, hstep⟩ | ⟨-, v, -, hstep⟩⟩ := h.inv.step_running h.busy hn
  · have hrecord := (stepKeepsInvariant t _ h.inv hstep).record_held
    exact ⟨_, hstep, rfl, .inr ⟨⟨rfl, .inl ⟨h.inv.run_noError h.busy, rfl, hrecord⟩⟩, rfl⟩⟩
  · exact ⟨_, hstep, rfl, .inr ⟨⟨rfl, .inr ⟨rfl, h.record, h.valid⟩⟩, rfl⟩⟩
  · exact ⟨_, hstep, rfl, .inl ⟨{ h with inv := stepKeepsInvariant t _ h.inv hstep }, State.upc_stage_advance hu _ rd v⟩⟩

/-- Settles O54: in RUN each step of the sequencer goes on to the next index or ends the cycle. -/
theorem cycleEndsWithin27Steps : Obligations.CycleEndsWithin27Steps := by
  intro s hs hb hag
  obtain ⟨n, t, ht, ⟨hidle, hended⟩, -, hbefore⟩ := runs_to_end (P := InRun s)
    (fun t h => h.inv.upc_le) (fun t h => h.step_sequencer) ⟨hs, hb, rfl, rfl⟩ hag
  obtain ⟨u, -, hrun, hu⟩ := hbefore n le_rfl
  have hle := hrun.inv.upc_le
  exact ⟨n + 1, t, by omega, ht, hidle, hended⟩

/-! ## A cycle with host reads in between -/

/-- The host only reads in the turns to come. -/
def OnlyReads (ts : List Turn) : Prop := ∀ u, Turn.host u ∈ ts → u.isRead = true

/-- While the host only reads, a cycle goes on or has ended, and stays so (R126). -/
theorem cycle_step {s t u : State} (h : Running s t ∨ CycleEnded s t) (hr : OnlyReads t.agenda)
    (hstep : step t = .next u) : (Running s u ∨ CycleEnded s u) ∧ OnlyReads u.agenda := by
  have htail : OnlyReads t.agenda.tail := fun w hw => hr w (List.mem_of_mem_tail hw)
  obtain ⟨w, rest, hag, hw⟩ | ⟨hn, hb, -⟩ := step_next hstep
  · obtain ⟨a, rfl⟩ := transact_next_of_isRead (hr w (hag ▸ List.mem_cons_self)) hw
    rw [hag] at htail
    exact ⟨h.imp (·.answering rest a) (·.answering rest a), htail⟩
  · obtain h | h := h
    · obtain ⟨v, hv, hag, hnext⟩ := h.step_sequencer hn
      obtain rfl : v = u := Host.Outcome.next.inj (hv.symm.trans hstep)
      exact ⟨hnext.imp And.left And.left, hag ▸ htail⟩
    · exact absurd (h.busy.symm.trans hb) Bool.false_ne_true

/-- A run of such steps. -/
theorem cycle_runs {s t u : State} {n : Nat} (h : Running s t ∨ CycleEnded s t) (hr : OnlyReads t.agenda)
    (hrun : t.runs n = .next u) : Running s u ∨ CycleEnded s u := by
  induction n generalizing t with
  | zero => exact Host.Outcome.next.inj hrun ▸ h
  | succ n ih =>
    cases hstep : step t with
    | next v =>
      obtain ⟨hv, hrv⟩ := cycle_step h hr hstep
      exact ih hv hrv ((t.runs_succ_of_step hstep n).symm.trans hrun)
    | fault r => rw [State.runs_eq, hstep] at hrun; cases hrun
    | refused r => rw [State.runs_eq, hstep] at hrun; cases hrun

/-- Wherever the block is idle after a `HostStart` with only reads to come, that cycle has ended. -/
theorem State.Inv.cycleEnded_of_idle {s t : State} (hs : s.Inv) (hb : s.busy = false) {ts : List Turn}
    (hag : s.agenda = .host .start :: ts) (hr : OnlyReads ts) {n : Nat} (hrun : s.runs (n + 1) = .next t)
    (hidle : t.busy = false) : CycleEnded s t := by
  have hstart : step s = .next (s.afterTurn ts).startCycle := (step_host hag).trans (whenIdle_of_idle _ hb)
  rw [State.runs_succ_of_step hstart] at hrun
  obtain h | h := cycle_runs (.inl (Running.start hs ts)) hr hrun
  · exact absurd (hidle.symm.trans h.busy) Bool.false_ne_true
  · exact h

/-- Two record files whose registers agree are equal. -/
theorem RegFile.ext_get {g h : RegFile} (e : ∀ f, g.get f = h.get f) : g = h := by
  cases g
  cases h
  rw [RegFile.mk.injEq]
  exact ⟨e .par_t1, e .par_t2, e .par_t3, e .par_p1, e .par_p2, e .par_p3, e .par_p4, e .par_p5, e .par_p6, e .par_p7,
    e .par_p8, e .par_p9, e .par_p10, e .par_h1, e .par_h2, e .par_h3, e .par_h4, e .par_h5, e .par_h6, e .par_h7,
    e .par_gh1, e .par_gh2, e .par_gh3, e .res_heat_range, e .res_heat_val, e .range_sw_err⟩

/-- Two auxiliary files whose registers agree are equal. -/
theorem AuxFile.ext_get {x y : AuxFile} (e : ∀ n, x.get n = y.get n) : x = y := by
  cases x
  cases y
  rw [AuxFile.mk.injEq]
  exact ⟨e .aux0, e .aux1, e .aux2⟩

/-- Two cycles that commit, on the same bytes and by programs of which each has the micro-operations of the other,
commit one record (R126, R127). -/
theorem Committed.record_eq {s₁ s₂ t₁ t₂ : State} (h₁ : Committed s₁ t₁) (h₂ : Committed s₂ t₂)
    (hbytes : SameBytes s₁ s₂) (hprog : ∀ i ∈ s₁.prog.instrs, i ∈ s₂.prog.instrs) :
    t₂.record = t₁.record := by
  refine RegFile.ext_get fun f => ?_
  obtain ⟨i, hi, hd, -⟩ := s₁.prog.exists_instr f
  rw [(h₁.record i f hi hd).1, (h₂.record i f (hprog i hi) hd).1, hbytes.resultBits]

/-- Two cycles that ended, on the same inputs, ended alike (R126). -/
theorem CycleEnded.eq_of_sameInputs {s₁ s₂ t₁ t₂ : State} (h₁ : CycleEnded s₁ t₁) (h₂ : CycleEnded s₂ t₂)
    (h : SameInputs s₁ s₂) :
    t₂.err = t₁.err ∧ t₂.errinfo = t₁.errinfo ∧ (t₁.err = .noError → t₂.record = t₁.record) := by
  have hfail : s₂.firstFailure 0 s₂.prog.instrs = s₁.firstFailure 0 s₁.prog.instrs := by rw [h.firstFailure, h.prog]
  obtain ⟨hnone, h₁⟩ | ⟨k, src, off, hsome, h₁⟩ := h₁
  · obtain ⟨-, h₂⟩ | ⟨k, src, off, hsome, -⟩ := h₂
    · exact ⟨h₂.err.trans h₁.err.symm, h₂.errinfo.trans h₁.errinfo.symm,
        fun _ => h₁.record_eq h₂ h.toSameBytes fun _ hi => h.prog ▸ hi⟩
    · rw [hfail, hnone] at hsome
      cases hsome
  · obtain ⟨hnone, -⟩ | ⟨k, src, off, hsome', h₂⟩ := h₂
    · rw [hfail, hsome] at hnone
      cases hnone
    · rw [hfail, hsome] at hsome'
      cases hsome'
      refine ⟨h₂.err.trans h₁.err.symm, BitVec.eq_of_toNat_eq (h₂.errinfo.trans h₁.errinfo.symm), fun h => ?_⟩
      exact absurd (h.symm.trans h₁.err) ErrCode.noConfusion

/-- Settles O51: both cycles have ended, on the same inputs. -/
theorem loadIsDeterministic : Obligations.LoadIsDeterministic := by
  intro s₁ s₂ ts₁ ts₂ hs₁ hs₂ hb₁ hb₂ hprog hbuf hblen haux hauxv hag₁ hag₂ hr₁ hr₂ n₁ n₂ t₁ t₂ hrun₁ hidle₁ hrun₂ hidle₂
  have hsame : SameInputs s₁ s₂ :=
    { prog := hprog.symm
      buf := (Memory.ext_read hs₁.buf_wf hs₂.buf_wf hbuf).symm
      blen := hblen.symm
      aux := (AuxFile.ext_get haux).symm
      auxv := hauxv.symm }
  have hended₁ := hs₁.cycleEnded_of_idle hb₁ hag₁ hr₁ hrun₁ hidle₁
  have hended₂ := hs₂.cycleEnded_of_idle hb₂ hag₂ hr₂ hrun₂ hidle₂
  obtain ⟨herr, herrinfo, hrecord⟩ := hended₁.eq_of_sameInputs hended₂ hsame
  exact ⟨herr, herrinfo, fun hok f => by rw [hrecord hok]⟩

/-! ## Two orders of one program -/

/-- Programs with the same extraction words in different orders have the same micro-operations (R127). -/
theorem mem_instrs_of_perm {p q : Program} (h : (p.words.take 26).Perm (q.words.take 26)) (i : Instr) :
    i ∈ q.instrs ↔ i ∈ p.instrs := by
  rw [q.instrs_eq_take, p.instrs_eq_take]
  exact ((h.filterMap decode).append_right _).mem_iff.symm

/-- A load by one program can fail exactly when a load by the other can (R127). -/
theorem State.ready_withProg_iff {s : State} {q : Program} (h : (s.prog.words.take 26).Perm (q.words.take 26)) :
    State.ready { s with prog := q } ↔ s.ready := by
  rw [State.ready_iff, State.ready_iff]
  exact forall_congr' fun i => imp_congr (mem_instrs_of_perm h i) Iff.rfl

/-- Settles O52: the two programs have the same micro-operations, so the same loads can fail, and those that cannot
commit one record. -/
theorem loadIsOrderIndependent : Obligations.LoadIsOrderIndependent := by
  intro s q hs hb hperm
  have hs' : State.Inv { s with prog := q } := hs.withProg hb q s.agenda
  have hbytes : SameBytes s { s with prog := q } := ⟨rfl, rfl, rfl, rfl⟩
  refine ⟨fun hready => ?_, fun hready => ?_⟩
  · obtain ⟨⟨t, ht, h⟩, -⟩ := hs.cycle_commits hb hready
    obtain ⟨⟨u, hu, h'⟩, -⟩ := hs'.cycle_commits hb ((State.ready_withProg_iff hperm).mpr hready)
    have hrecord : u.record = t.record :=
      h.record_eq h' hbytes fun i hi => (mem_instrs_of_perm hperm i).mpr hi
    exact ⟨t, u, ht, hu, h.valid, h.busy, h.err, h'.valid, h'.busy, h'.err, hrecord⟩
  · obtain ⟨j, src, off, t, hj, ht, h⟩ := hs.cycle_aborts hb hready
    obtain ⟨k, src', off', u, hk, hu, h'⟩ := hs'.cycle_aborts hb (mt (State.ready_withProg_iff hperm).mp hready)
    rw [hbytes.firstFailure] at hk
    exact ⟨j, k, _, _, t, u, hj, hk, ht, hu, h.busy, h.err, h.record, h.valid, h'.busy, h'.err, h'.record, h'.valid⟩

/-! ## The values of a canonical load -/

/-- A number below a bound of at most half of the register's patterns is its own value. -/
theorem val_bitsN_of_lt {f : Field} {n m : Nat} (hn : n < m) (hm : 2 * m ≤ 2 ^ f.width) :
    f.val (bitsN f.width n) = n :=
  f.val_bitsN_natCast (by omega)

section Canonical

variable (o : OffsetMap) (rangeMask errorMask : Byte) (buf : Byte → Byte) (aux : AuxReg → Byte)

/-- The register of a field holds the value the table of R124 gives for it. -/
theorem val_bitsN_calValue (f : Field) : f.val (bitsN f.width (calValue o rangeMask errorMask buf aux f)) =
    calValue o rangeMask errorMask buf aux f := by
  cases f with
  | par_t1 | par_p1 =>
    rw [calValue, assembleWord_false]
    exact val_bitsN_toNat rfl rfl _
  | par_t2 | par_p2 | par_p4 | par_p5 | par_p8 | par_p9 | par_gh2 =>
    rw [calValue, assembleWord_true]
    exact val_bitsN_signExtend rfl rfl _
  | par_t3 | par_p3 | par_p6 | par_p7 | par_h3 | par_h4 | par_h5 | par_h7 | par_gh1 | par_gh3 | res_heat_val =>
    exact val_bitsN_signExtend rfl rfl _
  | par_p10 | par_h6 => exact val_bitsN_toNat rfl rfl _
  | par_h1 => exact val_bitsN_of_lt (pack12_lt _ (lo4_lt _)) (by decide)
  | par_h2 => exact val_bitsN_of_lt (pack12_lt _ (hi4_lt _)) (by decide)
  | res_heat_range | range_sw_err => exact val_bitsN_of_lt (maskShift_lt _ _) (by decide)

variable {o rangeMask errorMask buf aux}

/-- What the canonical line of a field yields from the bytes it reads is the table's value (R123, R124). -/
theorem State.resultBits_calInstr {s : State} {f : Field}
    (hbuf : ∀ a : Byte, (.buffer, a) ∈ (calInstr o rangeMask errorMask f).reads → s.buf.read a.toNat = some (buf a))
    (haux : ∀ x, s.aux.get x = some (aux x)) :
    s.resultBits (calInstr o rangeMask errorMask f) f =
      some (bitsN f.width (calValue o rangeMask errorMask buf aux f)) := by
  cases f with
  | res_heat_range | res_heat_val | range_sw_err =>
    simp only [calInstr, Field.opOf, if_true, reduceCtorEq, if_false, State.resultBits, haux]
    rfl
  | par_t3 | par_p3 | par_p6 | par_p7 | par_h3 | par_h4 | par_h5 | par_h7 | par_gh1 | par_gh3 | par_p10 | par_h6 =>
    have hread := hbuf (o.off _) List.mem_cons_self
    simp only [calInstr, Field.opOf, State.resultBits, hread]
    rfl
  | par_t1 | par_p1 | par_t2 | par_p2 | par_p4 | par_p5 | par_p8 | par_p9 | par_gh2 | par_h1 | par_h2 =>
    have hmsb := hbuf (o.msb _) List.mem_cons_self
    have hlsb := hbuf (o.lsb _) (List.mem_cons_of_mem _ List.mem_cons_self)
    simp only [calInstr, Field.opOf, State.resultBits, hmsb, hlsb]
    rfl

end Canonical

/-- Settles O50: each field is loaded by its own line, which yields the value of the table. -/
theorem canonicalLoadValues : Obligations.CanonicalLoadValues := by
  intro o rangeMask errorMask s buf aux hs hb hready hprog hbuf haux
  obtain ⟨⟨t, ht, h⟩, -⟩ := hs.cycle_commits hb hready
  refine ⟨t, ht, h.valid, fun f => ⟨_, ?_, val_bitsN_calValue o rangeMask errorMask buf aux f⟩⟩
  have hi : calInstr o rangeMask errorMask f ∈ s.prog.instrs := by
    rw [hprog]
    exact List.mem_iff_getElem?.mpr
      ⟨f.index, (Program.instrs_getElem? _ _).trans (calprog_line o rangeMask errorMask f)⟩
  rw [(h.record _ f hi (calInstr_dest o rangeMask errorMask f)).1]
  refine State.resultBits_calInstr (fun a ha => hbuf a ?_) haux
  exact Nat.lt_of_not_le (of_decide_eq_false (s.ready_iff.mp hready _ hi _ ha))

end Sys2Proof.Machine

/-! # The compensation interface: `T_FINE` and its flag

Proofs about `45_compensation_interface.md`. Both transactions need a loaded record, in IDLE as in RUN; the read needs
`TFV = 1` too. The refusals are those of every transaction whose precondition fails (`step_refused`). -/

namespace Sys2Proof.Machine

open Sys2Proof

/-- An accepted `HostSetTFine` stores the bits and sets the flag (R131). -/
theorem transact_setTFine {s : State} (hv : s.valid = true) (v : BitVec Config.tfineW) :
    transact (.setTFine v) s = .next { s with tFine := some v, tfv := true } :=
  whenLoaded_of_valid _ hv

/-- An accepted `HostReadTFine` answers with the bits that are held (R132). -/
theorem transact_readTFine {s : State} {v : BitVec Config.tfineW} (hv : s.valid = true) (ht : s.tfv = true)
    (hf : s.tFine = some v) : transact .readTFine s = .next (s.answering (.tFine v)) :=
  (whenLoaded_of_valid _ hv).trans (by rw [if_pos ht, hf])

/-- Settles O36: `HostSetTFine` needs `VALID = 1` and writes `T_FINE` with its flag. -/
theorem hostSetTFineStoresTheBits : Obligations.HostSetTFineStoresTheBits := fun s v rest hag =>
  ⟨fun hv => (step_host hag).trans (transact_setTFine (s := s.afterTurn rest) hv v),
    fun hv => step_refused hag (ne_true_of_eq_false hv)⟩

/-- Settles O37: `HostReadTFine` needs `VALID = 1` and `TFV = 1`, and only answers. -/
theorem hostReadTFineReturnsTheBits : Obligations.HostReadTFineReturnsTheBits := by
  refine fun s rest hag => ⟨fun v hv ht hf => ?_, fun h => step_refused hag fun ⟨hv, ht⟩ => ?_⟩
  · exact (step_host hag).trans (transact_readTFine (s := s.afterTurn rest) hv ht hf)
  · obtain hvalid | htfv := h
    · exact absurd (hvalid.symm.trans hv) Bool.false_ne_true
    · exact absurd (htfv.symm.trans ht) Bool.false_ne_true

end Sys2Proof.Machine

/-! # Exceptions: the abort of a failing read, and that nothing else faults

Proofs about `60_exceptions.md`. A failing read is the first branch of what every extraction does after its reads. That
nothing else faults follows from what a step can answer: a next state, or one of the refusals of R113 and R20. -/

namespace Sys2Proof.Machine

open Sys2Proof

/-! ## The abort -/

/-- Settles O25: after its reads an extraction aborts at the first one that fails, and the abort is that of R147. -/
theorem firstFailingReadAborts : Obligations.FirstFailingReadAborts := by
  intro i rd s r hs hd hop hr
  refine ⟨s.abort r.1 r.2, ?_, s.abort_abortedFrom r.1 r.2⟩
  rw [exec_of_dest i rd s hs hd hop, afterReads, hr]

/-! ## The refusals of the host transactions -/

/-- The reasons by which a host transaction is refused: a precondition of R113, or an argument out of its range. -/
def Refusal.ofTransaction : Refusal → Bool
  | .busy | .tooLong | .notLoaded | .noSuchField | .tFineNotSet => true
  | .notModelled _ | .idle | .illFormedInstr | .illFormedProgram => false

section Refusals

variable {s : State} {r : Refusal} {k : Host.Outcome State Fault Refusal}

/-- A transaction that needs `BUSY = 0` is refused for that, or by what follows. -/
theorem whenIdle_refused (h : whenIdle s k = .refused r) : r = .busy ∨ k = .refused r := by
  unfold whenIdle at h
  split at h
  · exact .inl (Host.Outcome.refused.inj h).symm
  · exact .inr h

/-- A transaction that needs `VALID = 1` is refused for that, or by what follows. -/
theorem whenLoaded_refused (h : whenLoaded s k = .refused r) : r = .notLoaded ∨ k = .refused r := by
  unfold whenLoaded at h
  split at h
  · exact .inr h
  · exact .inl (Host.Outcome.refused.inj h).symm

/-- A refused transaction is refused by a reason of its own, in every state (R113). -/
theorem transact_refused_ofTransaction {u : HostTxn} (h : transact u s = .refused r) : r.ofTransaction = true := by
  cases u with
  | reset | readStatus | readErrInfo => cases h
  | fill bytes =>
    obtain rfl | h := whenIdle_refused h
    · rfl
    · split at h
      · cases h
      · cases h
        rfl
  | setAux | transportFail | start =>
    obtain rfl | h := whenIdle_refused h
    · rfl
    · cases h
  | readField n =>
    obtain rfl | h := whenLoaded_refused h
    · rfl
    · split at h
      · cases h
        rfl
      · split at h <;> cases h
  | setTFine =>
    obtain rfl | h := whenLoaded_refused h
    · rfl
    · cases h
  | readTFine =>
    obtain rfl | h := whenLoaded_refused h
    · rfl
    · split at h
      · split at h <;> cases h
      · cases h
        rfl

end Refusals

/-! ## What a step can answer -/

/-- Under the invariant a step answers a next state, or it is refused: the idle sequencer's turn (R20), or a transaction
by a reason of its own (R113). -/
theorem State.Inv.step_next_or_refused {s : State} (hs : s.Inv) :
    (∃ t, step s = .next t) ∨ ∃ r, step s = .refused r ∧ (r = .idle ∨ r.ofTransaction = true) := by
  by_cases hhost : ∃ u rest, s.agenda = .host u :: rest
  · obtain ⟨u, rest, hag⟩ := hhost
    rw [step_host hag]
    by_cases hallowed : u.allowed (s.afterTurn rest)
    · exact .inl (transact_accepted (hs.afterTurn rest) hallowed)
    · obtain ⟨r, hr⟩ := transact_refused hallowed
      exact .inr ⟨r, hr, .inr (transact_refused_ofTransaction hr)⟩
  · have hn : ∀ u rest, s.agenda ≠ .host u :: rest := fun u rest hag => hhost ⟨u, rest, hag⟩
    cases hb : s.busy with
    | false => exact .inr ⟨.idle, step_of_idle hb hn, .inl rfl⟩
    | true =>
      obtain ⟨-, hstep⟩ | ⟨i, rd, -, -, -, ⟨r, -, hstep⟩ | ⟨-, v, -, hstep⟩⟩ := hs.step_running hb hn
      all_goals exact .inl ⟨_, hstep⟩

/-- Settles O43: of a step's possible answers none is a fault, and no refusal is for an ill-formed word or program. -/
theorem reachableStatesNeverFault : Obligations.ReachableStatesNeverFault := by
  intro s hs
  obtain ⟨t, hstep⟩ | ⟨r, hstep, hr⟩ := hs.step_next_or_refused
  · rw [hstep]
    exact ⟨nofun, nofun, nofun⟩
  · rw [hstep]
    refine ⟨nofun, ?_, ?_⟩ <;>
    · rintro ⟨⟩
      obtain hidle | htransaction := hr
      · cases hidle
      · cases htransaction

end Sys2Proof.Machine

/-! # Reset, and the boot sequence that starts from it

Proofs about `70_reset_and_hazards.md`. Right after reset the preconditions `VALID = 1` and `TFV = 1` fail. The boot
sequence delivers both inputs to the reset block, which is then idle and ready, so that the load commits. -/

namespace Sys2Proof.Machine

open Sys2Proof

/-! ## Right after reset -/

/-- Settles O29: the storage is empty, so the reads of data fail their precondition and the flags read zero. -/
theorem nothingReadableAfterReset : Obligations.NothingReadableAfterReset := by
  intro p rest
  have hunloaded : (State.built p).valid ≠ true := Bool.false_ne_true
  have hstatus : statusWord (State.built p) = 0 := statusWord_eq_zero rfl rfl rfl rfl rfl
  refine ⟨fun f => ⟨RegFile.get_empty f, RegFile.get_empty f⟩, rfl, Memory.read_nil, AuxFile.get_empty, ?_, ?_, ?_, ?_⟩
  · exact fun _ => step_refused rfl fun ⟨hv, _⟩ => hunloaded hv
  · exact step_refused rfl fun ⟨hv, _⟩ => hunloaded hv
  · exact ⟨_, step_host (u := .readStatus) rfl, congrArg (fun w => some (Answer.status w)) hstatus⟩
  · exact ⟨_, step_host (u := .readErrInfo) rfl, rfl⟩

/-! ## The boot sequence -/

section Turns

variable {s : State} {rest : List Turn}

/-- A turn of `Reset` leaves the block just reset, with its program and the turns to come (R160). -/
theorem step_reset (hag : s.agenda = .host .reset :: rest) :
    step s = .next { State.built s.prog with agenda := rest } :=
  step_host hag

/-- In IDLE a turn of `HostFill` delivers what fits into the buffer (R114). -/
theorem step_fill {bytes : List Byte} (hb : s.busy = false) (hl : bytes.length ≤ 256)
    (hag : s.agenda = .host (.fill bytes) :: rest) : step s = .next
      { s.afterTurn rest with buf := Memory.fill bytes, blen := BitVec.ofNat 9 bytes.length } :=
  (step_host hag).trans ((whenIdle_of_idle _ hb).trans (if_pos hl))

/-- In IDLE a turn of `HostSetAux` supplies the three bytes (R115). -/
theorem step_setAux {b0 b1 b2 : Byte} (hb : s.busy = false) (hag : s.agenda = .host (.setAux b0 b1 b2) :: rest) :
    step s = .next { s.afterTurn rest with aux := ⟨some b0, some b1, some b2⟩, auxv := true } :=
  (step_host hag).trans (whenIdle_of_idle _ hb)

end Turns

/-- The block with program `p` right before `HostStart` of the boot sequence: just reset, and both inputs delivered
(R163). -/
def State.supplied (p : Program) (bytes : List Byte) (b0 b1 b2 : Byte) : State :=
  { State.built p with
    buf := Memory.fill bytes
    blen := BitVec.ofNat 9 bytes.length
    aux := ⟨some b0, some b1, some b2⟩
    auxv := true }

section Supplied

variable {bytes : List Byte} (hl : bytes.length ≤ 256) (b0 b1 b2 : Byte)

include hl

/-- Delivering the inputs after reset keeps the invariant (R114, R115). -/
theorem State.supplied_inv (p : Program) : (State.supplied p bytes b0 b1 b2).Inv :=
  ((resetSatisfiesInvariant.2 p).fill hl).setAux b0 b1 b2

/-- More bytes than the largest offset used are enough for the load not to fail (R124). -/
theorem State.supplied_ready {p : Program} (hm : p.maxOffset < bytes.length) :
    (State.supplied p bytes b0 b1 b2).ready := by
  have hlen : (BitVec.ofNat 9 bytes.length).toNat = bytes.length := by
    rw [BitVec.toNat_ofNat, Nat.mod_eq_of_lt (by omega)]
  exact ⟨hlen.symm ▸ Nat.succ_le_of_lt hm, rfl⟩

/-- The first three turns of the boot sequence supply the reset block, from any state (R163). -/
theorem State.runs_of_boot {s : State}
    (hag : s.agenda = [.host .reset, .host (.fill bytes), .host (.setAux b0 b1 b2), .host .start]) (n : Nat) :
    s.runs (n + 3) = (State.supplied s.prog bytes b0 b1 b2).starting.runs n :=
  calc s.runs (n + 3)
    _ = _ := State.runs_succ_of_step (step_reset hag) (n + 2)
    _ = _ := State.runs_succ_of_step (step_fill rfl hl rfl) (n + 1)
    _ = _ := State.runs_succ_of_step (step_setAux rfl rfl) n

end Supplied

/-- Settles O53: after the three turns before `HostStart` the block is idle and ready, so its cycle commits, and the
program names every field. -/
theorem bootSequenceLoadsTheRecord : Obligations.BootSequenceLoadsTheRecord := by
  intro s bytes b0 b1 b2 hag hm hl
  obtain ⟨⟨t, ht, h⟩, -⟩ :=
    (State.supplied_inv hl b0 b1 b2 s.prog).cycle_commits rfl (State.supplied_ready hl b0 b1 b2 hm)
  refine ⟨t, (State.runs_of_boot hl b0 b1 b2 hag 28).trans ht, h.busy, h.err, h.valid, fun f => ?_⟩
  obtain ⟨i, hi, hd, -⟩ := s.prog.exists_instr f
  exact (h.record i f hi hd).2

end Sys2Proof.Machine

/-! # What the model chooses where the specification leaves a choice

The OPEN length `CAL_LEN` is represented by a number in the range R5 gives (log entry 10), and a term of `Instr` that is
no micro-operation is refused (log entry 11). -/

namespace Sys2Proof

/-- An offset is a byte, so the largest one lies below the capacity of the buffer (R44). -/
theorem Program.maxOffset_lt_bufCap (p : Program) : p.maxOffset < Config.bufCap := by
  refine (p.maxOffset_lt_iff _).mpr fun k hk => ?_
  obtain ⟨a, -, rfl⟩ := (p.mem_bufferOffsets _).mp hk
  exact a.isLt

/-- Settles O9: the free part of `CAL_LEN` is reduced modulo the room above the largest offset, which is never empty. -/
theorem calLenInRange : Obligations.CalLenInRange := by
  intro p
  have hroom : 0 < Config.bufCap - p.maxOffset := Nat.sub_pos_of_lt p.maxOffset_lt_bufCap
  have hfree := Nat.mod_lt Config.calLenFree hroom
  unfold Program.calLen
  unfold Config.bufCap at *
  omega

end Sys2Proof

namespace Sys2Proof.Machine

open Sys2Proof

/-- Settles O23: each extraction's meaning first asks whether its destination is bound to it (`exec_of_not_wf`). -/
theorem unboundDestinationIsRefused : Obligations.UnboundDestinationIsRefused :=
  exec_of_not_wf

end Sys2Proof.Machine
